-- ==== Sys2Proof/Word.lean ====
section
/-! DEFINITION. The machine word: every register, memory cell, operand, address and scalar of the LS-8
is one byte (00_scope.md R6, 20_memory.md R54). -/

namespace Sys2Proof

/-- An 8-bit value, unsigned 0 to 255 (R6, R144). -/
abbrev Byte := BitVec 8

end Sys2Proof
end

