-- ==== Sys2Proof/Config.lean ====
section
/-! DEFINITION. The implementation parameters of 00_scope.md R5: the ones the spec fixes are constants, the
one it leaves open per cycle (`TIMER`) is a free value without a body. -/

namespace Sys2Proof.Config

/-- The two CALL/RET disciplines of R160 to R163 (decision D7). -/
inductive CallRetDiscipline where
  | reference
  | symmetric
deriving DecidableEq, Repr

/-- `CALL_RET_DISCIPLINE`, the spec's value (R5, R160). -/
def callRetDiscipline : CallRetDiscipline := .reference

/-- `IS_CLEAR_BEFORE_SAVE`, the spec's value (R5, R227). -/
def isClearBeforeSave : Bool := false

/-- `EXT_HANDLERS`, the spec's value (R5, R190). -/
def extHandlers : Bool := true

/-- `MEM_SIZE` (R5, R50). -/
def memSize : Nat := 256

/-- `SP_RESET` (R5, R38). -/
def spReset : Byte := 0xF4

/-- `PC_RESET` (R5, R252). -/
def pcReset : Byte := 0

/-- `INT_VECTOR_ADDR`, the handler-address slot (R5, R229). -/
def intVectorAddr : Byte := 0xF8

/-- `INT_FRAME_SIZE`, the bytes of an interrupt frame (R5, R226). -/
def intFrameSize : Nat := 9

/-- `TIMER`: what the timer presents in cycle number n, counted from 1 (R124, R222, D14).
OPEN in the spec, "a free input under no law": a free value without a body (log entry 1). -/
opaque timer : Nat → Bool

end Sys2Proof.Config
end

