-- ==== Sys2Proof/Syntax.lean ====
section
/-! DEFINITION. The instructions: one constructor per row of the dispatch table (30_encoding.md R86, R92).
An operand is the whole operand byte: a register index above 7 is a legal encoding whose execution raises
RegIndexFault with that byte (R85, R121), so the byte is kept (log entry 7). -/

namespace Sys2Proof

/-- The 21 instructions of R86. `a` is operand_a, `b` operand_b. -/
inductive Instr where
  | hlt
  | ret
  | iret
  | push (a : Byte)
  | pop (a : Byte)
  | prn (a : Byte)
  | pra (a : Byte)
  | call (a : Byte)
  | jmp (a : Byte)
  | ldi (a : Byte) (b : Byte)
  | st (a : Byte) (b : Byte)
  | add (a : Byte) (b : Byte)
  | mul (a : Byte) (b : Byte)
  | cmp (a : Byte) (b : Byte)
  | jne (a : Byte)
  | not (a : Byte)
  | sub (a : Byte) (b : Byte)
  | div (a : Byte) (b : Byte)
  | and (a : Byte) (b : Byte)
  | or (a : Byte) (b : Byte)
  | xor (a : Byte) (b : Byte)
deriving DecidableEq, Repr

end Sys2Proof
end

