-- ==== Sys2Proof/WellFormed.lean ====
section
/-! DEFINITION. Well-formed instructions and launch images: every register operand names a register
(30_encoding.md R85, R92), an image fits the memory (70_reset_and_hazards.md R254). -/

namespace Sys2Proof

/-- The operand bytes an instruction uses as register indices, in the order the handler checks them
(R85, R86, R122). -/
def Instr.regOperands : Instr → List Byte
  | .hlt => []
  | .ret => []
  | .iret => []
  | .push a => [a]
  | .pop a => [a]
  | .prn a => [a]
  | .pra a => [a]
  | .call a => [a]
  | .jmp a => [a]
  | .ldi a _ => [a]
  | .st a b => [a, b]
  | .add a b => [a, b]
  | .mul a b => [a, b]
  | .cmp a b => [a, b]
  | .jne a => [a]
  | .not a => [a]
  | .sub a b => [a, b]
  | .div a b => [a, b]
  | .and a b => [a, b]
  | .or a b => [a, b]
  | .xor a b => [a, b]

/-- Every register operand is 0 to 7 (R85). An instruction that fails this still decodes; executing it
raises RegIndexFault (R121). -/
def Instr.wellFormed (i : Instr) : Bool := i.regOperands.all fun k => decide (k.toNat ≤ 7)

/-- An image the loader accepts: at most 256 bytes (R254, D17). -/
def imageWellFormed (image : List Byte) : Bool := decide (image.length ≤ Config.memSize)

end Sys2Proof
end

