-- ==== Sys2Proof/Decode.lean ====
section
/-! DEFINITION. The decoder, the dispatch table and the encoder (30_encoding.md R80 to R90). -/

namespace Sys2Proof

/-- The rows of the dispatch table of R86, by mnemonic. -/
inductive Op where
  | hlt | ret | iret
  | push | pop | prn | pra | call | jmp
  | ldi | st | add | mul | cmp
  | jne | not
  | sub | div | and | or | xor
deriving DecidableEq, Repr

/-- `OPC`: the instruction byte of each mnemonic (R86). UNVERIFIED: the values are the spec's decision D2,
from general knowledge (log entry 4). -/
def OPC : Op → Byte
  | .hlt => 0x01
  | .ret => 0x11
  | .iret => 0x13
  | .push => 0x45
  | .pop => 0x46
  | .prn => 0x47
  | .pra => 0x48
  | .call => 0x50
  | .jmp => 0x54
  | .ldi => 0x82
  | .st => 0x84
  | .add => 0xA0
  | .mul => 0xA2
  | .cmp => 0xA7
  | .jne => 0x56
  | .not => 0x69
  | .sub => 0xA1
  | .div => 0xA3
  | .and => 0xA8
  | .or => 0xAA
  | .xor => 0xAB

/-- The fourteen rows of the set LS-8/base (R86). -/
def baseOps : List Op :=
  [.hlt, .ret, .iret, .push, .pop, .prn, .pra, .call, .jmp, .ldi, .st, .add, .mul, .cmp]

/-- The seven rows of the set LS-8/ext (R86, R190). -/
def extOps : List Op := [.jne, .not, .sub, .div, .and, .or, .xor]

/-- The rows present in the table: the ext rows only when `EXT_HANDLERS` is true (R86, R190). -/
def presentOps (ext : Bool) : List Op := if ext then baseOps ++ extOps else baseOps

/-- The dispatcher's lookup, keyed by the whole byte (R87, R117). -/
def opOfByte (ext : Bool) (ir : Byte) : Option Op := (presentOps ext).find? fun o => OPC o == ir

/-- The decoder of R82: the total length in bytes, `(ir >> 6) + 1`, for every byte. -/
def decodeWidth (ir : Byte) : Nat := (ir >>> 6).toNat + 1

/-- The instruction of a row and two operand bytes; a handler ignores those it does not use (R84, R118). -/
def buildInstr (o : Op) (a b : Byte) : Instr :=
  match o with
  | .hlt => .hlt
  | .ret => .ret
  | .iret => .iret
  | .push => .push a
  | .pop => .pop a
  | .prn => .prn a
  | .pra => .pra a
  | .call => .call a
  | .jmp => .jmp a
  | .ldi => .ldi a b
  | .st => .st a b
  | .add => .add a b
  | .mul => .mul a b
  | .cmp => .cmp a b
  | .jne => .jne a
  | .not => .not a
  | .sub => .sub a b
  | .div => .div a b
  | .and => .and a b
  | .or => .or a b
  | .xor => .xor a b

/-- The instruction in the three fetched bytes, with the ext rows present or not (R84, R86); `none` is an
unrecognized opcode (R88). -/
def decodeFetchedWith (ext : Bool) (ir a b : Byte) : Option Instr :=
  (opOfByte ext ir).map fun o => buildInstr o a b

/-- The instruction in the three fetched bytes under the spec's `EXT_HANDLERS`. -/
def decodeFetched (ir a b : Byte) : Option Instr := decodeFetchedWith Config.extHandlers ir a b

/-- Why a byte list does not decode. -/
inductive DecodeError where
  | truncated
  | unrecognizedOpcode (ir : Byte)
deriving DecidableEq, Repr

/-- The decoder on a byte stream: the first instruction and the rest. Its length comes from the top two
bits alone (R83); an opcode byte outside the table is rejected with that byte (R88). -/
def decode : List Byte → Except DecodeError (Instr × List Byte)
  | [] => .error .truncated
  | ir :: rest =>
    match opOfByte Config.extHandlers ir with
    | none => .error (.unrecognizedOpcode ir)
    | some o =>
      match decodeWidth ir, rest with
      | 1, r => .ok (buildInstr o 0 0, r)
      | 2, a :: r => .ok (buildInstr o a 0, r)
      | 3, a :: b :: r => .ok (buildInstr o a b, r)
      | _, _ => .error .truncated

/-- The encoder: opcode byte, then the operand bytes at ascending addresses (R80, R86, R91). -/
def encode : Instr → List Byte
  | .hlt => [OPC .hlt]
  | .ret => [OPC .ret]
  | .iret => [OPC .iret]
  | .push a => [OPC .push, a]
  | .pop a => [OPC .pop, a]
  | .prn a => [OPC .prn, a]
  | .pra a => [OPC .pra, a]
  | .call a => [OPC .call, a]
  | .jmp a => [OPC .jmp, a]
  | .ldi a b => [OPC .ldi, a, b]
  | .st a b => [OPC .st, a, b]
  | .add a b => [OPC .add, a, b]
  | .mul a b => [OPC .mul, a, b]
  | .cmp a b => [OPC .cmp, a, b]
  | .jne a => [OPC .jne, a]
  | .not a => [OPC .not, a]
  | .sub a b => [OPC .sub, a, b]
  | .div a b => [OPC .div, a, b]
  | .and a b => [OPC .and, a, b]
  | .or a b => [OPC .or, a, b]
  | .xor a b => [OPC .xor, a, b]

/-- Byte `k` of an instruction whose bits, numbered as spec/opcode_table.json numbers them, are `w`; bits
from `nbits` up are 0. -/
def tableByte (nbits w k : Nat) : Byte := BitVec.ofNat 8 (w % 2 ^ nbits / 2 ^ (8 * k))

/-- What the decoder reads from a table word: the first byte is bits 7..0 and lies at the lowest address
(R54, R80). -/
def decodeTableWord (nbits w : Nat) : Option Instr :=
  decodeFetched (tableByte nbits w 0) (tableByte nbits w 1) (tableByte nbits w 2)

end Sys2Proof
end

