-- ==== Sys2Proof/Machine/State.lean ====
section
/-! DEFINITION. The state of the machine (10_state.md R20), its reset value (R38), and the reasons a step
of the model can stop. -/

namespace Sys2Proof.Machine

/-- `run`: the engine's state machine (R31). -/
inductive RunState where
  | running
  | halted
deriving DecidableEq, Repr

/-- `halt_cause`: why the engine halted (R32, R210). -/
inductive HaltCause where
  | none
  | hlt
  | unrecognizedOpcode
  | stackFault
  | regIndexFault
  | divideByZero
deriving DecidableEq, Repr

/-- An event of the output port: `Dec(v)` from PRN, `Chr(v)` from PRA (R33, R170). -/
inductive OutEvent where
  | dec (v : Byte)
  | chr (v : Byte)
deriving DecidableEq, Repr

/-- Why a step has no next state. The fatal conditions of R210 are no faults of this type: the spec gives
their whole effect, and they are next states with `run` = HALTED. -/
inductive Fault where
  /-- Raised by `step` alone, when `run` = HALTED: the machine has no step there (R111, U14 "stuck").
  Safe: nothing can be proved of a next state that does not exist (log entry 2). -/
  | halted
deriving DecidableEq, Repr

/-- Why an input or an instruction has no meaning. -/
inductive Refusal where
  /-- Raised by an arm of `exec` whose instruction has no meaning yet; no arm does. Safe. -/
  | notModelled (mnemonic : String)
  /-- Raised by `load`: an image of more than 256 bytes is no launch state (R254, D17). Safe. -/
  | imageTooLong
deriving DecidableEq, Repr

/-- Memory as address and byte pairs, addresses strictly rising, no pair holding 0, which is what an
unlisted address reads as (20_memory.md R51). -/
abbrev Memory := List Host.Cell

/-- The complete state (R20), and `cycle`, which is the model's own. -/
@[ext]
structure State where
  /-- `mem`: the 256 cells (R34). -/
  mem : Memory
  /-- `x`: the register file (R21 to R23). -/
  x : Vector Byte 8
  /-- `pc`: the address of the next instruction's opcode byte (R24, R25). -/
  pc : Byte
  /-- `sp`: the address of the most recently pushed byte (R27, C1). -/
  sp : Byte
  /-- `fl`: the flags register 0b00000LGE (R29). -/
  fl : Byte
  /-- `run` (R31). -/
  run : RunState
  /-- `halt_cause` (R32). -/
  haltCause : HaltCause
  /-- `halt_info` (R32). -/
  haltInfo : Byte
  /-- `out`: everything PRN and PRA have emitted, oldest first (R33). -/
  out : List OutEvent
  /-- The model's own: how many cycles have begun, the argument of the free value `Config.timer`.
  DESIGN CHOICE (log entry 1). -/
  cycle : Nat
deriving DecidableEq, Repr

/-- The machine right after reset (R38, R250). `cycle` starts at 0: DESIGN CHOICE (log entry 1). -/
def State.reset : State where
  mem := []
  x := #v[0, 0, 0, 0, 0, 0, 0, Config.spReset]
  pc := Config.pcReset
  sp := Config.spReset
  fl := 0
  run := .running
  haltCause := .none
  haltInfo := 0
  out := []
  cycle := 0

end Sys2Proof.Machine
end

