-- ==== Sys2Proof/Machine/Ops.lean ====
section
/-! DEFINITION. The named operations over memory, registers, stack and output (00_scope.md R7), stopping the
engine (60_exceptions.md R215), and interrupt entry and return (R226, 46_system.md R180). -/

namespace Sys2Proof.Machine

/-! ### Memory -/

/-- The byte at an address; an unlisted address reads 0 (20_memory.md R51). -/
def Memory.read : Memory → Nat → Byte
  | [], _ => 0
  | c :: m, a => if c.1 = a then c.2 else Memory.read m a

/-- An entry in front of a memory, or none where it would hold what an unlisted address reads as. -/
def Memory.put (a : Nat) (v : Byte) (m : Memory) : Memory := if v = 0 then m else (a, v) :: m

/-- Put a byte at an address, keeping the canonical form: writing 0 removes the entry. -/
def Memory.write : Memory → Nat → Byte → Memory
  | [], a, v => Memory.put a v []
  | c :: m, a, v =>
    if a < c.1 then Memory.put a v (c :: m)
    else if a = c.1 then Memory.put a v m
    else c :: Memory.write m a v

/-- The canonical form from address `lo` up: addresses strictly rising, below 256, no entry 0. -/
def Memory.wfFrom : Nat → Memory → Bool
  | _, [] => true
  | lo, c :: m => decide (lo ≤ c.1) && decide (c.1 < Config.memSize) && decide (c.2 ≠ 0) && Memory.wfFrom (c.1 + 1) m

/-- The canonical form of memory (R34, R50). -/
def Memory.wf (m : Memory) : Bool := Memory.wfFrom 0 m

/-- `MemRead(addr, 1)` (R7, R55): it cannot fault (R53). -/
def memRead (s : State) (a : Byte) : Byte := Memory.read s.mem a.toNat

/-- `MemWrite(addr, 1, v)` (R7, R55): it cannot fault (R53). -/
def memWrite (a v : Byte) (s : State) : State := { s with mem := Memory.write s.mem a.toNat v }

/-! ### Registers and scalars -/

/-- `x[r]` (R7, R21). -/
def readReg (s : State) (r : Fin 8) : Byte := s.x[r]

/-- `x[r] <- v` (R7, R21): no register is hardwired. -/
def writeReg (r : Fin 8) (v : Byte) (s : State) : State := { s with x := s.x.set r v }

/-- `pc <- t` (R7, R25). -/
def setPc (t : Byte) (s : State) : State := { s with pc := t }

/-- `sp <- v` (R27). -/
def setSp (v : Byte) (s : State) : State := { s with sp := v }

/-- `fl <- v`, all 8 bits (R30). -/
def setFl (v : Byte) (s : State) : State := { s with fl := v }

/-- `next` of the row `o`: `(pc + width) mod 256`, width decoded from the opcode byte (R7, R26, R119). -/
def nextPc (o : Op) (s : State) : Byte := s.pc + BitVec.ofNat 8 (decodeWidth (OPC o))

/-- `pc <- next`, the end of every sequential handler (R119). -/
def advance (o : Op) (s : State) : State := setPc (nextPc o s) s

/-- `emit(e)` (R7, 45_output.md R170). -/
def emit (e : OutEvent) (s : State) : State := { s with out := s.out ++ [e] }

/-! ### Stopping the engine -/

/-- `raise cause(info)` (R7, R215): the one operation that halts. Everything else keeps its value, pc
included, and nothing traps to software. HLT stops the engine the same way (R181). -/
def raise (cause : HaltCause) (info : Byte) (s : State) : State :=
  { s with run := .halted, haltCause := cause, haltInfo := info }

/-- The codes of R32 and R210. -/
def haltCode : HaltCause → Nat
  | .none => 0
  | .hlt => 1
  | .unrecognizedOpcode => 2
  | .stackFault => 3
  | .regIndexFault => 4
  | .divideByZero => 5

/-! ### The stack -/

/-- `push8(v)`, for sp ≥ 1 (43_stack.md R150); the bound is checked by the rule that uses it. -/
def push8 (v : Byte) (s : State) : State := memWrite (s.sp - 1) v (setSp (s.sp - 1) s)

/-- `pop8()`, for sp ≤ 254 (R151): the value and the state after. -/
def pop8 (s : State) : Byte × State := (memRead s s.sp, setSp (s.sp + 1) s)

/-- Pop into a register. -/
def popReg (r : Fin 8) (s : State) : State := writeReg r (pop8 s).1 (pop8 s).2

/-- Pop into `fl`, all 8 bits. -/
def popFl (s : State) : State := setFl (pop8 s).1 (pop8 s).2

/-- Pop into pc. -/
def popPc (s : State) : State := setPc (pop8 s).1 (pop8 s).2

/-! ### The timer interrupt -/

/-- The interrupt mask register, x[5] (R22). -/
def intMaskReg : Fin 8 := 5

/-- The interrupt status register, x[6] (R22). -/
def intStatusReg : Fin 8 := 6

/-- The interrupt check of R225: taken exactly when bit 0 of x[5] & x[6] is 1. -/
def interruptTaken (s : State) : Bool := (readReg s intMaskReg &&& readReg s intStatusReg).getLsbD 0

/-- Clear interrupt status: bit 0 of x[6] only (R226, R227, D10). -/
def clearStatus (s : State) : State := writeReg intStatusReg (readReg s intStatusReg &&& 0xFE) s

/-- The bytes an entry pushes, first pushed first: pc, fl, x[0] to x[6] (R226, D12). -/
def frameBytes (s : State) : List Byte :=
  [s.pc, s.fl, readReg s 0, readReg s 1, readReg s 2, readReg s 3, readReg s 4, readReg s 5, readReg s 6]

/-- Push a list of bytes, the first first. -/
def pushAll : List Byte → State → State
  | [], s => s
  | v :: vs, s => pushAll vs (push8 v s)

/-- `pc <- MemRead(0xF8, 1)` (R229). -/
def vectorPc (s : State) : State := setPc (memRead s Config.intVectorAddr) s

/-- Interrupt entry (R226, R228), for either value of `IS_CLEAR_BEFORE_SAVE` (R227): save the frame, clear
the status bit, vector; StackFault before anything is written when fewer than nine cells lie below sp. -/
def interruptEntryWith (clearFirst : Bool) (s : State) : State :=
  if s.sp.toNat < Config.intFrameSize then raise .stackFault 0 s
  else
    let s0 := if clearFirst then clearStatus s else s
    vectorPc (clearStatus (pushAll (frameBytes s0) s0))

/-- Interrupt entry under the spec's `IS_CLEAR_BEFORE_SAVE`. -/
def interruptEntry (s : State) : State := interruptEntryWith Config.isClearBeforeSave s

/-- The nine pops of IRET: x[6] down to x[0], fl, pc (R180), the inverse of the frame's pushes. -/
def restoreFrame (s : State) : State :=
  popPc (popFl (popReg 0 (popReg 1 (popReg 2 (popReg 3 (popReg 4 (popReg 5 (popReg 6 s))))))))

/-- Return from interrupt (R180): StackFault when nine pops would take sp above 255, before any read. -/
def interruptReturn (s : State) : State :=
  if 246 < s.sp.toNat then raise .stackFault 0 s else restoreFrame s

/-- Phase 2, the clock advance (R113, R222): `if tick then x[6] <- x[6] | 0x01`; or-ing 0 changes nothing. -/
def latchTick (tick : Bool) (s : State) : State :=
  writeReg intStatusReg (readReg s intStatusReg ||| (if tick then 0x01 else 0x00)) s

/-! ### The status outputs -/

/-- `status`: run, halt_cause, halt_info (00_scope.md R11, R13). -/
def status (s : State) : RunState × HaltCause × Byte := (s.run, s.haltCause, s.haltInfo)

end Sys2Proof.Machine
end

