-- ==== Sys2Proof/Machine/Flags.lean ====
section
/-! DEFINITION. The flag computations (10_state.md R29, 42_alu.md R142): only CMP computes flags, only JNE
among the instructions reads one. UNVERIFIED: the bit positions are the spec's decision D3 (log entry 5). -/

namespace Sys2Proof.Machine

/-- `fl` with E alone set (R29). -/
def flEqual : Byte := 0x01

/-- `fl` with G alone set (R29). -/
def flGreater : Byte := 0x02

/-- `fl` with L alone set (R29). -/
def flLess : Byte := 0x04

/-- What CMP writes: the comparison of unsigned values, exactly one flag set (R142, R144). -/
def compareFlags (p q : Byte) : Byte :=
  if p = q then flEqual else if q.toNat < p.toNat then flGreater else flLess

/-- Bit E of `fl`, the only bit JNE examines (R197). -/
def equalFlag (fl : Byte) : Bool := fl.getLsbD 0

end Sys2Proof.Machine
end

