-- ==== Sys2Proof/Machine/Operands.lean ====
section
/-! DEFINITION. The operand forms (30_encoding.md R85): a register index byte with its check
(40_engine_cycle.md R121, R122), one or two of them. The other form, the immediate of LDI, is the byte itself. -/

namespace Sys2Proof.Machine

/-- `reg(k)`: the register an operand byte selects, if it is 0 to 7 (R121). -/
def regIndex (k : Byte) : Option (Fin 8) := if h : k.toNat < 8 then some ⟨k.toNat, h⟩ else none

/-- The operand byte that names register `r` (R91). -/
def regByte (r : Fin 8) : Byte := BitVec.ofNat 8 r.val

/-- One register operand: RegIndexFault(a) when it is above 7, before anything else (R121, R122). -/
def withReg (a : Byte) (s : State) (effect : Fin 8 → State) : State :=
  match regIndex a with
  | some ra => effect ra
  | none => raise .regIndexFault a s

/-- Two register operands, `a` checked first, then `b` (R121, R122). -/
def withRegs (a b : Byte) (s : State) (effect : Fin 8 → Fin 8 → State) : State :=
  withReg a s fun ra => withReg b s fun rb => effect ra rb

end Sys2Proof.Machine
end

