-- ==== Sys2Proof/Machine/Alu.lean ====
section
/-! DEFINITION. The ALU instructions: ADD, MUL, CMP (42_alu.md) and, by decision D19, SUB, DIV, AND, OR, XOR,
NOT (47_scope_named_extension.md). Arithmetic is unsigned modulo 256 (R143, R144), which is `BitVec`'s. -/

namespace Sys2Proof.Machine

/-- `x[ra] <- f(x[ra], x[rb]); pc <- next`: the shape of R140, R141 and R191 to R195. -/
def aluBinary (o : Op) (f : Byte → Byte → Byte) (a b : Byte) (s : State) : State :=
  withRegs a b s fun ra rb => advance o (writeReg ra (f (readReg s ra) (readReg s rb)) s)

/-- ADD Ra, Rb (R140). -/
def execAdd (a b : Byte) (s : State) : Host.Outcome State Fault Refusal :=
  .next (aluBinary .add (fun p q => p + q) a b s)

/-- MUL Ra, Rb (R141): the low byte of the product. -/
def execMul (a b : Byte) (s : State) : Host.Outcome State Fault Refusal :=
  .next (aluBinary .mul (fun p q => p * q) a b s)

/-- CMP Ra, Rb (R142): writes all 8 bits of `fl`. -/
def execCmp (a b : Byte) (s : State) : Host.Outcome State Fault Refusal :=
  .next (withRegs a b s fun ra rb => advance .cmp (setFl (compareFlags (readReg s ra) (readReg s rb)) s))

/-- SUB Ra, Rb (R191). -/
def execSub (a b : Byte) (s : State) : Host.Outcome State Fault Refusal :=
  .next (aluBinary .sub (fun p q => p - q) a b s)

/-- DIV Ra, Rb (R192): unsigned quotient; DivideByZero when the divisor is 0. -/
def execDiv (a b : Byte) (s : State) : Host.Outcome State Fault Refusal :=
  .next (withRegs a b s fun ra rb =>
    if readReg s rb = 0 then raise .divideByZero 0 s
    else advance .div (writeReg ra (readReg s ra / readReg s rb) s))

/-- AND Ra, Rb (R193). -/
def execAnd (a b : Byte) (s : State) : Host.Outcome State Fault Refusal :=
  .next (aluBinary .and (fun p q => p &&& q) a b s)

/-- OR Ra, Rb (R194). -/
def execOr (a b : Byte) (s : State) : Host.Outcome State Fault Refusal :=
  .next (aluBinary .or (fun p q => p ||| q) a b s)

/-- XOR Ra, Rb (R195). -/
def execXor (a b : Byte) (s : State) : Host.Outcome State Fault Refusal :=
  .next (aluBinary .xor (fun p q => p ^^^ q) a b s)

/-- NOT Ra (R196). -/
def execNot (a : Byte) (s : State) : Host.Outcome State Fault Refusal :=
  .next (withReg a s fun ra => advance .not (writeReg ra (~~~ readReg s ra) s))

end Sys2Proof.Machine
end

