-- ==== Sys2Proof/Machine/ControlFlow.lean ====
section
/-! DEFINITION. CALL, RET, JMP (44_control_flow.md) and JNE (47_scope_named_extension.md R197). Targets are
absolute; no width is added to a taken target (R120, R166). -/

namespace Sys2Proof.Machine

/-- CALL Ra under either discipline (R160, R163): the return address is `next`. -/
def callWith (d : Config.CallRetDiscipline) (a : Byte) (s : State) : State :=
  withReg a s fun ra =>
    match d with
    | .reference => setPc (readReg s ra) (memWrite s.sp (nextPc .call s) s)
    | .symmetric =>
      if s.sp = 0 then raise .stackFault 0 s else setPc (readReg s ra) (push8 (nextPc .call s) s)

/-- RET under either discipline (R161, R163). -/
def retWith (d : Config.CallRetDiscipline) (s : State) : State :=
  match d with
  | .reference => setPc (memRead s s.sp) s
  | .symmetric => if s.sp = 255 then raise .stackFault 0 s else popPc s

/-- CALL Ra (R160), the spec's discipline. -/
def execCall (a : Byte) (s : State) : Host.Outcome State Fault Refusal :=
  .next (callWith Config.callRetDiscipline a s)

/-- RET (R161), the spec's discipline. -/
def execRet (s : State) : Host.Outcome State Fault Refusal :=
  .next (retWith Config.callRetDiscipline s)

/-- JMP Ra (R162). -/
def execJmp (a : Byte) (s : State) : Host.Outcome State Fault Refusal :=
  .next (withReg a s fun ra => setPc (readReg s ra) s)

/-- JNE Ra (R197): branch when bit E of `fl` is clear. -/
def execJne (a : Byte) (s : State) : Host.Outcome State Fault Refusal :=
  .next (withReg a s fun ra => if equalFlag s.fl then advance .jne s else setPc (readReg s ra) s)

end Sys2Proof.Machine
end

