-- ==== Sys2Proof/Machine/LoadStore.lean ====
section
/-! DEFINITION. LDI and ST (41_load_store.md R130, R131). -/

namespace Sys2Proof.Machine

/-- LDI Ra, immediate (R130). -/
def execLdi (a b : Byte) (s : State) : Host.Outcome State Fault Refusal :=
  .next (withReg a s fun ra => advance .ldi (writeReg ra b s))

/-- ST Ra, Rb (R131): the address is x[ra], the data x[rb]. -/
def execSt (a b : Byte) (s : State) : Host.Outcome State Fault Refusal :=
  .next (withRegs a b s fun ra rb => advance .st (memWrite (readReg s ra) (readReg s rb) s))

end Sys2Proof.Machine
end

