-- ==== Sys2Proof/Machine/Output.lean ====
section
/-! DEFINITION. PRN and PRA and the rendering of the output port (45_output.md R170 to R173). -/

namespace Sys2Proof.Machine

/-- PRN Ra (R171). -/
def execPrn (a : Byte) (s : State) : Host.Outcome State Fault Refusal :=
  .next (withReg a s fun ra => advance .prn (emit (.dec (readReg s ra)) s))

/-- PRA Ra (R173). -/
def execPra (a : Byte) (s : State) : Host.Outcome State Fault Refusal :=
  .next (withReg a s fun ra => advance .pra (emit (.chr (readReg s ra)) s))

/-- The ASCII byte of a decimal digit. -/
def asciiDigit (d : Nat) : Byte := BitVec.ofNat 8 (0x30 + d)

/-- The decimal digits of a byte's value, most significant first, no leading zeros (R172). -/
def decimalDigits (v : Byte) : List Byte :=
  let n := v.toNat
  if n < 10 then [asciiDigit n]
  else if n < 100 then [asciiDigit (n / 10), asciiDigit (n % 10)]
  else [asciiDigit (n / 100), asciiDigit (n / 10 % 10), asciiDigit (n % 10)]

/-- The bytes of one event (R172): decimal digits and a newline byte 0x0A, or the one raw byte. -/
def renderEvent : OutEvent → List Byte
  | .dec v => decimalDigits v ++ [0x0A]
  | .chr v => [v]

/-- The rendering of `out`: its events' renderings, concatenated (R172). -/
def render : List OutEvent → List Byte
  | [] => []
  | e :: es => renderEvent e ++ render es

end Sys2Proof.Machine
end

