-- ==== Sys2Proof/Machine/Stack.lean ====
section
/-! DEFINITION. PUSH and POP (43_stack.md R152, R153). -/

namespace Sys2Proof.Machine

/-- PUSH Ra (R152): StackFault when sp = 0. -/
def execPush (a : Byte) (s : State) : Host.Outcome State Fault Refusal :=
  .next (withReg a s fun ra =>
    if s.sp = 0 then raise .stackFault 0 s else advance .push (push8 (readReg s ra) s))

/-- POP Ra (R153): StackFault when sp = 255. -/
def execPop (a : Byte) (s : State) : Host.Outcome State Fault Refusal :=
  .next (withReg a s fun ra =>
    if s.sp = 255 then raise .stackFault 0 s else advance .pop (popReg ra s))

end Sys2Proof.Machine
end

