-- ==== Sys2Proof/Machine/System.lean ====
section
/-! DEFINITION. IRET and HLT (46_system.md R180, R181). -/

namespace Sys2Proof.Machine

/-- IRET (R180). -/
def execIret (s : State) : Host.Outcome State Fault Refusal := .next (interruptReturn s)

/-- HLT (R181): the normal end, pc left at the HLT byte. -/
def execHlt (s : State) : Host.Outcome State Fault Refusal := .next (raise .hlt 0 s)

end Sys2Proof.Machine
end

