-- ==== Sys2Proof/Machine/Dispatch.lean ====
section
/-! DEFINITION. The handlers, one arm per instruction (40_engine_cycle.md R116 to R118). A handler is defined
on every state; that no handler runs in HALTED is `step`'s doing (R111). -/

namespace Sys2Proof.Machine

def exec (i : Instr) (s : State) : Host.Outcome State Fault Refusal :=
  match i with
  | .hlt => Sys2Proof.Machine.execHlt s
  | .ret => Sys2Proof.Machine.execRet s
  | .iret => Sys2Proof.Machine.execIret s
  | .push a => Sys2Proof.Machine.execPush a s
  | .pop a => Sys2Proof.Machine.execPop a s
  | .prn a => Sys2Proof.Machine.execPrn a s
  | .pra a => Sys2Proof.Machine.execPra a s
  | .call a => Sys2Proof.Machine.execCall a s
  | .jmp a => Sys2Proof.Machine.execJmp a s
  | .ldi a b => Sys2Proof.Machine.execLdi a b s
  | .st a b => Sys2Proof.Machine.execSt a b s
  | .add a b => Sys2Proof.Machine.execAdd a b s
  | .mul a b => Sys2Proof.Machine.execMul a b s
  | .cmp a b => Sys2Proof.Machine.execCmp a b s
  | .jne a => Sys2Proof.Machine.execJne a s
  | .not a => Sys2Proof.Machine.execNot a s
  | .sub a b => Sys2Proof.Machine.execSub a b s
  | .div a b => Sys2Proof.Machine.execDiv a b s
  | .and a b => Sys2Proof.Machine.execAnd a b s
  | .or a b => Sys2Proof.Machine.execOr a b s
  | .xor a b => Sys2Proof.Machine.execXor a b s

end Sys2Proof.Machine
end

