-- ==== Sys2Proof/Machine/Cycle.lean ====
section
/-! DEFINITION. The engine's cycle and its phases (40_engine_cycle.md R110 to R116), and placing an
instruction where the next fetch reads it. -/

namespace Sys2Proof.Machine

/-- Phase 1, the interrupt check and, if it succeeds, the entry (R112, R225, R226). -/
def interruptCheck (s : State) : State := if interruptTaken s then interruptEntry s else s

/-- Phase 5, dispatch of the fetched bytes (R116): the handler of a recognized byte, else
UnrecognizedOpcode(ir) (R88, R211). -/
def dispatch (ir a b : Byte) (s : State) : Host.Outcome State Fault Refusal :=
  match decodeFetched ir a b with
  | some i => exec i s
  | none => .next (raise .unrecognizedOpcode ir s)

/-- Phases 3 to 5: fetch three bytes at pc, pc + 1, pc + 2 modulo 256 (R84, R114), decode, dispatch. -/
def fetchAndDispatch (s : State) : Host.Outcome State Fault Refusal :=
  dispatch (memRead s s.pc) (memRead s (s.pc + 1)) (memRead s (s.pc + 2)) s

/-- `Cycle(s, tick)` for a RUNNING engine (R110). A fault in phase 1 ends the cycle. The function is defined on HALTED
states too, where the spec has no cycle and `step` does not use it (log entry 9, DEDUCED). -/
def engineCycle (tick : Bool) (s : State) : Host.Outcome State Fault Refusal :=
  let s1 := interruptCheck s
  match s1.run with
  | .halted => .next s1
  | .running => fetchAndDispatch (latchTick tick s1)

/-- Advance the model's own cycle number, the argument of `Config.timer` (log entry 1). -/
def beginCycle (s : State) : State := { s with cycle := s.cycle + 1 }

/-- Drop a pending interrupt that the next check would take. -/
def dropTakenInterrupt (s : State) : State := if interruptTaken s then clearStatus s else s

/-- The three bytes of a table word at pc, pc + 1, pc + 2, and an engine whose next cycle fetches them: RUNNING,
no interrupt about to be taken (log entry 3). From reset only memory changes. -/
def placeWord (nbits w : Nat) (s : State) : State :=
  dropTakenInterrupt
    { memWrite s.pc (tableByte nbits w 0)
        (memWrite (s.pc + 1) (tableByte nbits w 1) (memWrite (s.pc + 2) (tableByte nbits w 2) s)) with
      run := .running, haltCause := .none, haltInfo := 0 }

end Sys2Proof.Machine
end

