-- ==== Sys2Proof/Machine/Load.lean ====
section
/-! DEFINITION. The host's inputs before a run: `reset` (70_reset_and_hazards.md R250) and `load(IMAGE)` (R254). -/

namespace Sys2Proof.Machine

/-- Write a list of bytes to memory from address `a` up. -/
def storeBytes : List Byte → Nat → Memory → Memory
  | [], _, m => m
  | v :: vs, a, m => storeBytes vs (a + 1) (Memory.write m a v)

/-- `load(IMAGE)` (R254): IMAGE[i] to cell i; an image of more than 256 bytes is refused (D17). Nothing but
memory changes. -/
def load (image : List Byte) (s : State) : Host.Outcome State Fault Refusal :=
  if imageWellFormed image then .next { s with mem := storeBytes image 0 s.mem } else .refused .imageTooLong

/-- A launch: reset, then load (R13, R124). -/
def launch (image : List Byte) : Host.Outcome State Fault Refusal := load image State.reset

/-- The `reset` input in any state (R250): nothing survives. The model's own cycle number goes on, so that the
timer's later values stay free of its earlier ones (log entry 1). -/
def applyReset (s : State) : State := { State.reset with cycle := s.cycle }

end Sys2Proof.Machine
end

