-- ==== Sys2Proof/Machine/Step.lean ====
section
/-! DEFINITION. One step of the machine: one cycle of a RUNNING engine (40_engine_cycle.md R110, R124). -/

namespace Sys2Proof.Machine

/-- One cycle, with the tick the free value `Config.timer` gives for its number (R124, R222). In HALTED there
is no step (R111): the model stops with the fault `halted` (log entry 2). -/
def step (s : State) : Host.Outcome State Fault Refusal :=
  match s.run with
  | .running => engineCycle (Config.timer (s.cycle + 1)) (beginCycle s)
  | .halted => .fault .halted

/-- An instruction's table word stored where the next step fetches (log entry 3). -/
def State.withFetchWord (s : State) (nbits w : Nat) : State := placeWord nbits w s

end Sys2Proof.Machine
end

