-- ==== Sys2Proof/Safety.lean ====
section
/-! DEFINITION. The terms claims use: how a run ends (40_engine_cycle.md R124), the state invariant, and the
write sets of the instructions (10_state.md R23, R28, R30, 20_memory.md R66). -/

namespace Sys2Proof.Machine

/-- A normal end: halted by HLT (R124). -/
abbrev NormalEnd (s : State) : Prop := s.run = .halted ∧ s.haltCause = .hlt

/-- A fatal end: halted for any other cause (R124, R210). -/
abbrev FatalEnd (s : State) : Prop := s.run = .halted ∧ s.haltCause ≠ .hlt

/-- The instruction bytes of the fourteen LS-8/base rows of R86, written out. -/
def baseBytes : List Byte :=
  [0x01, 0x11, 0x13, 0x45, 0x46, 0x47, 0x48, 0x50, 0x54, 0x82, 0x84, 0xA0, 0xA2, 0xA7]

/-- The instruction bytes of the seven LS-8/ext rows of R86 and R190, written out. -/
def extBytes : List Byte := [0xA1, 0xA3, 0xA8, 0xAA, 0xAB, 0x69, 0x56]

/-- What `halt_info` holds for each cause (R32, R210). -/
def infoFits : HaltCause → Byte → Bool
  | .none, info => decide (info = 0)
  | .hlt, info => decide (info = 0)
  | .unrecognizedOpcode, info => (opOfByte Config.extHandlers info).isNone
  | .stackFault, info => decide (info = 0)
  | .regIndexFault, info => decide (7 < info.toNat)
  | .divideByZero, info => decide (info = 0)

/-- The status outputs agree (R31, R32): the cause is None exactly while RUNNING, and the info fits it. -/
def statusFits (s : State) : Bool :=
  decide (s.run = .running ↔ s.haltCause = .none) && infoFits s.haltCause s.haltInfo

/-- The invariant of the machine: memory in canonical form, which is the model's form (log entry 8, DEDUCED), and status
outputs that agree (R31, R32). -/
abbrev Inv (s : State) : Prop := Memory.wf s.mem = true ∧ statusFits s = true

/-- The state a fatal stop leaves: only run, halt_cause and halt_info differ (R215). -/
abbrev stoppedWith (cause : HaltCause) (info : Byte) (s : State) : State :=
  { s with run := .halted, haltCause := cause, haltInfo := info }

/-- A one-register instruction raises RegIndexFault(a) when a > 7 and does nothing else (R121, R122). -/
abbrev FaultsAboveSeven (mk : Byte → Instr) : Prop :=
  ∀ (s : State) (a : Byte), 7 < a.toNat → exec (mk a) s = .next (stoppedWith .regIndexFault a s)

/-- A two-register instruction raises RegIndexFault(a) when a > 7, else RegIndexFault(b) when b > 7 (R121, R122). -/
abbrev FaultsAboveSevenInOrder (mk : Byte → Byte → Instr) : Prop :=
  ∀ (s : State) (a b : Byte),
    (7 < a.toNat → exec (mk a b) s = .next (stoppedWith .regIndexFault a s)) ∧
    (a.toNat ≤ 7 → 7 < b.toNat → exec (mk a b) s = .next (stoppedWith .regIndexFault b s))

/-- The first register operand above 7, which RegIndexFault reports (R121, R122, R213). -/
def firstBadReg (i : Instr) : Option Byte := i.regOperands.find? fun k => decide (7 < k.toNat)

/-- The cell an instruction stores to, if its form stores: ST at x[ra], PUSH at sp - 1, CALL at sp (R131, R152,
R160, R66). -/
def storeAddress (i : Instr) (s : State) : Option Byte :=
  match i with
  | .st a _ => (regIndex a).map fun ra => readReg s ra
  | .push _ => some (s.sp - 1)
  | .call _ => some s.sp
  | .hlt | .ret | .iret | .pop _ | .prn _ | .pra _ | .jmp _ | .ldi _ _ | .add _ _ | .mul _ _ | .cmp _ _ | .jne _
  | .not _ | .sub _ _ | .div _ _ | .and _ _ | .or _ _ | .xor _ _ => none

/-- Whether an instruction may write register `r` (R23): LDI, POP and the arithmetic and logic handlers write the
register of operand a, IRET writes x[0] to x[6], nothing else writes one. -/
def writesReg (i : Instr) (r : Fin 8) : Bool :=
  match i with
  | .ldi a _ | .pop a | .not a | .add a _ | .mul a _ | .sub a _ | .div a _ | .and a _ | .or a _ | .xor a _ =>
    regIndex a == some r
  | .iret => decide (r ≠ 7)
  | .hlt | .ret | .push _ | .prn _ | .pra _ | .call _ | .jmp _ | .st _ _ | .cmp _ _ | .jne _ => false

/-- The fatal causes an instruction can raise (R216, the reference discipline). -/
def mayRaise (i : Instr) : List HaltCause :=
  match i with
  | .hlt => [.hlt]
  | .ret => []
  | .iret => [.stackFault]
  | .push _ | .pop _ => [.regIndexFault, .stackFault]
  | .div _ _ => [.regIndexFault, .divideByZero]
  | .prn _ | .pra _ | .call _ | .jmp _ | .ldi _ _ | .st _ _ | .add _ _ | .mul _ _ | .cmp _ _ | .jne _ | .not _
  | .sub _ _ | .and _ _ | .or _ _ | .xor _ _ => [.regIndexFault]

end Sys2Proof.Machine
end

