-- ==== Sys2Proof/Certificates/Slice0/Obligations.lean ====
section
/-! DEFINITION. The statements for the provers. Each says what a numbered rule of spec/ says; where a clause rests on a
decision of the spec (D<n>) or on a log entry of the model, its docstring names it. `regByte r` is the operand byte
that names register r: the bytes 0 to 7 are exactly these (`regByte_iff` in Laws/Ops). -/

open Sys2Proof Sys2Proof.Machine

/-- For every instruction, with every operand byte at every value (the ones above 7 too), decode of encode i followed by
any bytes is i and those bytes. The opcode bytes are decision D2 of the spec (log entry 4). Derived from:
30_encoding.md R80, R83, R85, R86. -/
def Obligations.DecodeUndoesEncode : Prop :=
  ∀ (i : Instr) (rest : List Byte), decode (encode i ++ rest) = .ok (i, rest)

/-- If a byte string decodes to an instruction and a rest, it is the encoding of that instruction followed by that rest:
no second byte string stands for an instruction. Derived from: 30_encoding.md R80, R83, R86. -/
def Obligations.EncodeUndoesDecode : Prop :=
  ∀ (bs : List Byte) (i : Instr) (rest : List Byte), decode bs = .ok (i, rest) → bs = encode i ++ rest

/-- The fetched bytes ir, a, b decode to i exactly when they begin with the encoding of i: the bytes past the width are
ignored, and no encoded byte is. Derived from: 30_encoding.md R80, R84; 40_engine_cycle.md R118. -/
def Obligations.FetchedBytesDecodeByTheirEncoding : Prop :=
  ∀ (i : Instr) (ir a b : Byte), decodeFetched ir a b = some i ↔ encode i <+: [ir, a, b]

/-- Bytes written out from the dispatch table: the built-in program 82 00 08 47 00 01, and one word of each family.
Derived from: 30_encoding.md R86, R95; 95_test_vectors.md P1, P2, P8. -/
def Obligations.SampleWordsDecodeToTheirInstructions : Prop :=
  decode [0x82, 0x00, 0x08, 0x47, 0x00, 0x01] = .ok (.ldi 0 8, [0x47, 0x00, 0x01]) ∧
  decode [0x47, 0x00, 0x01] = .ok (.prn 0, [0x01]) ∧
  decode [0x01] = .ok (.hlt, []) ∧
  decode [0x84, 0x00, 0x01] = .ok (.st 0 1, []) ∧
  decode [0xA7, 0x00, 0x02] = .ok (.cmp 0 2, []) ∧
  decode [0x45, 0x07] = .ok (.push 7, []) ∧
  decode [0x50, 0x01] = .ok (.call 1, []) ∧
  decode [0x13] = .ok (.iret, []) ∧
  decode [0xA3, 0x03, 0x04] = .ok (.div 3 4, []) ∧
  decode [0x56, 0x03] = .ok (.jne 3, []) ∧
  decode [0xFF, 0x00, 0x00] = .error (.unrecognizedOpcode 0xFF) ∧
  decodeTableWord 24 0x0100A0 = some (.add 0 1)

/-- With EXT_HANDLERS false the recognized bytes are the fourteen base bytes, with true the twenty-one, whatever follows
the byte; under the spec's value (true) the machine's decoder recognizes the twenty-one. The values are decisions D2
and D19 of the spec. Derived from: 30_encoding.md R86, R87, R90; 47_scope_named_extension.md R190. -/
def Obligations.RecognizedBytesAreTheTable : Prop :=
  ∀ ir a b : Byte,
    ((decodeFetchedWith false ir a b).isSome = true ↔ ir ∈ baseBytes) ∧
    ((decodeFetchedWith true ir a b).isSome = true ↔ ir ∈ baseBytes ∨ ir ∈ extBytes) ∧
    ((decodeFetched ir a b).isSome = true ↔ ir ∈ baseBytes ∨ ir ∈ extBytes)

/-- The decodeWidth of a byte is its value divided by 64, plus one, so 1 to 4; and it equals the number of bytes of every
instruction's encoding, whose first byte is its opcode byte. Derived from: 30_encoding.md R82, R83;
92_eei_decisions.md D25. -/
def Obligations.WidthIsTopTwoBitsPlusOne : Prop :=
  (∀ ir : Byte, decodeWidth ir = ir.toNat / 64 + 1 ∧ 1 ≤ decodeWidth ir ∧ decodeWidth ir ≤ 4) ∧
  (∀ i : Instr, (encode i).head?.map decodeWidth = some (encode i).length)

/-- In a RUNNING state, let s1 be the state after the interrupt check (with the model's cycle number advanced, log entry
1) and, if s1 is RUNNING, s2 the state after the clock advance with the tick of this cycle. If the three bytes at
the pc of s2 decode to i, the step is exec i at s2; if they do not, it halts with UnrecognizedOpcode and the byte at
that pc; if the entry itself halted s1, the step ends in s1. When no interrupt is taken, s1 is the state itself and
the bytes are those at its own pc. Derived from: 40_engine_cycle.md R110, R112, R116, R124; 30_encoding.md R84. -/
def Obligations.StepRunsTheDecodedInstruction : Prop :=
  (∀ s : State, s.run = .running →
    let s1 := interruptCheck (beginCycle s)
    let s2 := latchTick (Config.timer (s.cycle + 1)) s1
    let fetched := decodeFetched (memRead s2 s2.pc) (memRead s2 (s2.pc + 1)) (memRead s2 (s2.pc + 2))
    (∀ i : Instr, s1.run = .running → fetched = some i → step s = exec i s2) ∧
    (s1.run = .running → fetched = none → step s = .next (stoppedWith .unrecognizedOpcode (memRead s2 s2.pc) s2)) ∧
    (s1.run = .halted → step s = .next s1)) ∧
  (∀ (s : State) (i : Instr), s.run = .running → interruptTaken s = false →
    decodeFetched (memRead s s.pc) (memRead s (s.pc + 1)) (memRead s (s.pc + 2)) = some i →
    step s = exec i (latchTick (Config.timer (s.cycle + 1)) (beginCycle s)))

/-- A HALTED engine takes no step, whatever else the state holds; the model's form of the missing step is the fault
halted (log entry 2). Derived from: 40_engine_cycle.md R111; 93_implementation_defined.md U14. -/
def Obligations.HaltedEngineHasNoStep : Prop :=
  ∀ s : State, s.run = .halted → step s = .fault .halted

/-- After reset every memory cell reads 0, x[0] to x[6] are 0, x[7] and sp are 0xF4, pc and fl are 0, run is RUNNING,
the cause None, the info 0, out empty, and no interrupt is taken, the mask bit being 0 (the values of fl, halt_cause,
halt_info and out are the spec's decision D16). The reset input in any state forces the same values on all the spec's
state (R250, its decision D32); that the model's own cycle number, which is no state of the spec, survives the reset
input is the model's choice (log entry 1, DESIGN CHOICE). Derived from: 10_state.md R38; 70_reset_and_hazards.md R250,
R253; 92_eei_decisions.md D16, D32. -/
def Obligations.ResetLeavesTheSpecsValues : Prop :=
  (∀ a : Byte, memRead State.reset a = 0) ∧
  (∀ r : Fin 8, readReg State.reset r = if r = 7 then 0xF4 else 0) ∧
  State.reset.sp = 0xF4 ∧ State.reset.pc = 0 ∧ State.reset.fl = 0 ∧ State.reset.run = .running ∧
  State.reset.haltCause = .none ∧ State.reset.haltInfo = 0 ∧ State.reset.out = [] ∧
  (readReg State.reset 5).getLsbD 0 = false ∧ interruptTaken State.reset = false ∧
  (∀ s : State, applyReset s = { State.reset with cycle := s.cycle })

/-- For an image of at most 256 bytes the launch succeeds: cell i reads IMAGE[i], every cell above the image reads 0,
nothing but memory differs from reset. A longer image is refused, in any state (decision D17 of the spec). Derived
from: 70_reset_and_hazards.md R254; 92_eei_decisions.md D17. -/
def Obligations.LoadPlacesTheImage : Prop :=
  (∀ image : List Byte, image.length ≤ 256 →
    ∃ m : Memory, launch image = .next { State.reset with mem := m } ∧
      (∀ (i : Nat) (h : i < image.length), Memory.read m i = image[i]) ∧
      (∀ i : Nat, image.length ≤ i → Memory.read m i = 0)) ∧
  (∀ (image : List Byte) (s : State), 256 < image.length → load image s = .refused .imageTooLong)

/-- LDI with a register operand 0 to 7 writes the immediate unchanged and advances pc by 3, nothing else changing; above
7 it raises RegIndexFault(a) before any write. The opcode byte is decision D2 of the spec; the RegIndexFault clauses
are its decision D6. Stated: R130. -/
def Obligations.LdiLoadsTheImmediate : Prop :=
  (∀ a b : Byte, encode (.ldi a b) = [0x82, a, b]) ∧
  (∀ (s : State) (ra : Fin 8) (b : Byte),
    exec (.ldi (regByte ra) b) s = .next { s with x := s.x.set ra b, pc := s.pc + 3 }) ∧
  (∀ b : Byte, FaultsAboveSeven fun a => .ldi a b)

/-- ST writes the byte x[rb] at the address x[ra], all 8 bits, and advances pc by 3; no register and no flag changes; a
operand above 7 raises RegIndexFault(a), else b above 7 RegIndexFault(b). The opcode byte is decision D2 of the
spec; the RegIndexFault clauses are its decision D6. Stated: R131. -/
def Obligations.StStoresAtTheRegisterAddress : Prop :=
  (∀ a b : Byte, encode (.st a b) = [0x84, a, b]) ∧
  (∀ (s : State) (ra rb : Fin 8), exec (.st (regByte ra) (regByte rb)) s =
    .next { s with mem := Memory.write s.mem (readReg s ra).toNat (readReg s rb), pc := s.pc + 3 }) ∧
  FaultsAboveSevenInOrder .st

/-- ADD writes (x[ra] + x[rb]) mod 256, computed on the unsigned values, to x[ra] and advances pc by 3; nothing else
changes, no flag is written; RegIndexFault for a, else for b, above 7. The opcode byte is decision D2 of the spec;
the RegIndexFault clauses are its decision D6. Stated: R140. -/
def Obligations.AddIsSumModulo256 : Prop :=
  (∀ a b : Byte, encode (.add a b) = [0xA0, a, b]) ∧
  (∀ (s : State) (ra rb : Fin 8), exec (.add (regByte ra) (regByte rb)) s =
    .next { s with x := s.x.set ra (BitVec.ofNat 8 ((readReg s ra).toNat + (readReg s rb).toNat)), pc := s.pc + 3 }) ∧
  FaultsAboveSevenInOrder .add

/-- MUL writes (x[ra] * x[rb]) mod 256, the low byte of the product, to x[ra] and advances pc by 3; nothing else
changes; RegIndexFault for a, else for b, above 7. The opcode byte is decision D2 of the spec; the RegIndexFault
clauses are its decision D6. Stated: R141. -/
def Obligations.MulIsProductModulo256 : Prop :=
  (∀ a b : Byte, encode (.mul a b) = [0xA2, a, b]) ∧
  (∀ (s : State) (ra rb : Fin 8), exec (.mul (regByte ra) (regByte rb)) s =
    .next { s with x := s.x.set ra (BitVec.ofNat 8 ((readReg s ra).toNat * (readReg s rb).toNat)), pc := s.pc + 3 }) ∧
  FaultsAboveSevenInOrder .mul

/-- CMP writes fl: 0x01 if the values are equal, 0x02 if x[ra] is greater as an unsigned value, else 0x04; registers and
memory are unchanged and pc advances by 3; RegIndexFault for a, else for b, above 7. The bit positions are decision
D3 of the spec; the opcode byte is decision D2 of the spec; the RegIndexFault clauses are its decision D6. Stated:
R142. -/
def Obligations.CmpSetsExactlyOneFlag : Prop :=
  (∀ a b : Byte, encode (.cmp a b) = [0xA7, a, b]) ∧
  (∀ (s : State) (ra rb : Fin 8), exec (.cmp (regByte ra) (regByte rb)) s =
    .next { s with
      fl := if (readReg s ra).toNat = (readReg s rb).toNat then 0x01
            else if (readReg s ra).toNat > (readReg s rb).toNat then 0x02 else 0x04
      pc := s.pc + 3 }) ∧
  FaultsAboveSevenInOrder .cmp

/-- SUB writes (x[ra] - x[rb]) mod 256 to x[ra] and advances pc by 3; no borrow is recorded and nothing else changes;
RegIndexFault for a, else for b, above 7. The instruction is decision D19 of the spec. Stated: R191. -/
def Obligations.SubIsDifferenceModulo256 : Prop :=
  (∀ a b : Byte, encode (.sub a b) = [0xA1, a, b]) ∧
  (∀ (s : State) (ra rb : Fin 8), exec (.sub (regByte ra) (regByte rb)) s =
    .next { s with
      x := s.x.set ra (BitVec.ofInt 8 (((readReg s ra).toNat : Int) - ((readReg s rb).toNat : Int)))
      pc := s.pc + 3 }) ∧
  FaultsAboveSevenInOrder .sub

/-- DIV with a non-zero divisor writes the floor of the quotient of the unsigned values to x[ra] and advances pc by 3;
with divisor 0 it raises DivideByZero(0) and writes nothing; the register checks come first. The instruction is
decision D19 of the spec. Stated: R192. -/
def Obligations.DivIsUnsignedQuotientOrFault : Prop :=
  (∀ a b : Byte, encode (.div a b) = [0xA3, a, b]) ∧
  (∀ (s : State) (ra rb : Fin 8), readReg s rb ≠ 0 → exec (.div (regByte ra) (regByte rb)) s =
    .next { s with
      x := s.x.set ra (BitVec.ofNat 8 ((readReg s ra).toNat / (readReg s rb).toNat)), pc := s.pc + 3 }) ∧
  (∀ (s : State) (ra rb : Fin 8), readReg s rb = 0 →
    exec (.div (regByte ra) (regByte rb)) s = .next (stoppedWith .divideByZero 0 s)) ∧
  FaultsAboveSevenInOrder .div

/-- AND writes the bitwise and of x[ra] and x[rb] to x[ra] and advances pc by 3; nothing else changes; RegIndexFault for
a, else for b, above 7. The instruction is decision D19 of the spec. Stated: R193. -/
def Obligations.AndIsBitwise : Prop :=
  (∀ a b : Byte, encode (.and a b) = [0xA8, a, b]) ∧
  (∀ (s : State) (ra rb : Fin 8), exec (.and (regByte ra) (regByte rb)) s =
    .next { s with x := s.x.set ra (readReg s ra &&& readReg s rb), pc := s.pc + 3 }) ∧
  FaultsAboveSevenInOrder .and

/-- OR writes the bitwise inclusive or of x[ra] and x[rb] to x[ra] and advances pc by 3; nothing else changes;
RegIndexFault for a, else for b, above 7. The instruction is decision D19 of the spec. Stated: R194. -/
def Obligations.OrIsBitwise : Prop :=
  (∀ a b : Byte, encode (.or a b) = [0xAA, a, b]) ∧
  (∀ (s : State) (ra rb : Fin 8), exec (.or (regByte ra) (regByte rb)) s =
    .next { s with x := s.x.set ra (readReg s ra ||| readReg s rb), pc := s.pc + 3 }) ∧
  FaultsAboveSevenInOrder .or

/-- XOR writes the bitwise exclusive or of x[ra] and x[rb] to x[ra] and advances pc by 3; nothing else changes;
RegIndexFault for a, else for b, above 7. The instruction is decision D19 of the spec. Stated: R195. -/
def Obligations.XorIsBitwise : Prop :=
  (∀ a b : Byte, encode (.xor a b) = [0xAB, a, b]) ∧
  (∀ (s : State) (ra rb : Fin 8), exec (.xor (regByte ra) (regByte rb)) s =
    .next { s with x := s.x.set ra (readReg s ra ^^^ readReg s rb), pc := s.pc + 3 }) ∧
  FaultsAboveSevenInOrder .xor

/-- NOT writes the complement, 255 - x[ra], to x[ra] and advances pc by 2; nothing else changes; RegIndexFault(a) above
7. The instruction is decision D19 of the spec. Stated: R196. -/
def Obligations.NotIsComplement : Prop :=
  (∀ a : Byte, encode (.not a) = [0x69, a]) ∧
  (∀ (s : State) (ra : Fin 8), exec (.not (regByte ra)) s =
    .next { s with x := s.x.set ra (BitVec.ofNat 8 (255 - (readReg s ra).toNat)), pc := s.pc + 2 }) ∧
  FaultsAboveSeven .not

/-- PUSH with sp not 0 stores x[ra] in the cell sp - 1, which becomes the new sp, and advances pc by 2; no register
changes; with sp = 0 it raises StackFault, after the register check and before any write. The faults are decisions
D5 and D6 of the spec; the opcode byte is decision D2 of the spec. Stated: R152. -/
def Obligations.PushStoresBelowSp : Prop :=
  (∀ a : Byte, encode (.push a) = [0x45, a]) ∧
  (∀ (s : State) (ra : Fin 8), s.sp ≠ 0 → exec (.push (regByte ra)) s =
    .next { s with
      mem := Memory.write s.mem (s.sp.toNat - 1) (readReg s ra), sp := s.sp - 1, pc := s.pc + 2 }) ∧
  (∀ (s : State) (ra : Fin 8), s.sp = 0 → exec (.push (regByte ra)) s = .next (stoppedWith .stackFault 0 s)) ∧
  FaultsAboveSeven .push

/-- POP with sp not 255 writes the byte at sp to x[ra], increments sp and advances pc by 2; memory is unchanged; with sp
= 255 it raises StackFault, after the register check and before any write. The faults are decisions D5 and D6 of the
spec; the opcode byte is decision D2 of the spec. Stated: R153. -/
def Obligations.PopReadsAtSp : Prop :=
  (∀ a : Byte, encode (.pop a) = [0x46, a]) ∧
  (∀ (s : State) (ra : Fin 8), s.sp ≠ 255 → exec (.pop (regByte ra)) s =
    .next { s with x := s.x.set ra (memRead s s.sp), sp := s.sp + 1, pc := s.pc + 2 }) ∧
  (∀ (s : State) (ra : Fin 8), s.sp = 255 → exec (.pop (regByte ra)) s = .next (stoppedWith .stackFault 0 s)) ∧
  FaultsAboveSeven .pop

/-- CALL writes (pc + 2) mod 256 in the cell sp addresses, leaves sp, and sets pc to the value of x[ra]; no register
changes; RegIndexFault(a) above 7, before the write. The discipline and the return address are decisions D7 and D8
of the spec; the opcode byte is decision D2 of the spec; the RegIndexFault clauses are its decision D6. Stated:
R160. -/
def Obligations.CallStoresReturnAddressAtSp : Prop :=
  (∀ a : Byte, encode (.call a) = [0x50, a]) ∧
  (∀ (s : State) (ra : Fin 8), exec (.call (regByte ra)) s =
    .next { s with mem := Memory.write s.mem s.sp.toNat (s.pc + 2), pc := readReg s ra }) ∧
  FaultsAboveSeven .call

/-- RET sets pc to the byte in the cell sp addresses; sp, registers, memory and flags are unchanged; it cannot fault.
The discipline is decision D7 of the spec; the opcode byte is decision D2 of the spec. Stated: R161. -/
def Obligations.RetJumpsToTheByteAtSp : Prop :=
  encode .ret = [0x11] ∧
  (∀ s : State, exec .ret s = .next { s with pc := memRead s s.sp })

/-- JMP sets pc to x[ra] and changes nothing else; RegIndexFault(a) above 7. The opcode byte is decision D2 of the spec;
the RegIndexFault clauses are its decision D6. Stated: R162. -/
def Obligations.JmpJumpsToTheRegister : Prop :=
  (∀ a : Byte, encode (.jmp a) = [0x54, a]) ∧
  (∀ (s : State) (ra : Fin 8), exec (.jmp (regByte ra)) s = .next { s with pc := readReg s ra }) ∧
  FaultsAboveSeven .jmp

/-- JNE sets pc to x[ra] when bit 0 of fl is 0, else to pc + 2; no other bit of fl matters and nothing else changes;
RegIndexFault(a) above 7 whether or not the branch would be taken. The instruction is decision D19 of the spec.
Stated: R197. -/
def Obligations.JneBranchesOnEClear : Prop :=
  (∀ a : Byte, encode (.jne a) = [0x56, a]) ∧
  (∀ (s : State) (ra : Fin 8), exec (.jne (regByte ra)) s =
    .next { s with pc := if s.fl.toNat % 2 = 0 then readReg s ra else s.pc + 2 }) ∧
  FaultsAboveSeven .jne

/-- PRN appends the event Dec(x[ra]) to out and advances pc by 2; registers, memory and sp are unchanged;
RegIndexFault(a) above 7, with nothing emitted. The opcode byte is decision D2 of the spec; the RegIndexFault
clauses are its decision D6. Stated: R171. -/
def Obligations.PrnEmitsADecimalEvent : Prop :=
  (∀ a : Byte, encode (.prn a) = [0x47, a]) ∧
  (∀ (s : State) (ra : Fin 8), exec (.prn (regByte ra)) s =
    .next { s with out := s.out ++ [.dec (readReg s ra)], pc := s.pc + 2 }) ∧
  FaultsAboveSeven .prn

/-- PRA appends the event Chr(x[ra]) to out and advances pc by 2; registers, memory and sp are unchanged;
RegIndexFault(a) above 7, with nothing emitted. The opcode byte is decision D2 of the spec; the RegIndexFault
clauses are its decision D6. Stated: R173. -/
def Obligations.PraEmitsACharacterEvent : Prop :=
  (∀ a : Byte, encode (.pra a) = [0x48, a]) ∧
  (∀ (s : State) (ra : Fin 8), exec (.pra (regByte ra)) s =
    .next { s with out := s.out ++ [.chr (readReg s ra)], pc := s.pc + 2 }) ∧
  FaultsAboveSeven .pra

/-- With sp at most 246, IRET loads x[6] to x[0] from the cells sp to sp + 6, all 8 bits of fl from sp + 7, pc from sp +
8, and adds 9 to sp; x[7] and memory are unchanged. With sp above 246 it raises StackFault before anything is read
or written (decision D5 of the spec). The opcode byte is decision D2 of the spec. Stated: R180. -/
def Obligations.IretPopsTheNineByteFrame : Prop :=
  encode .iret = [0x13] ∧
  (∀ s : State, s.sp.toNat ≤ 246 → exec .iret s =
    .next { s with
      x := #v[memRead s (s.sp + 6), memRead s (s.sp + 5), memRead s (s.sp + 4), memRead s (s.sp + 3),
              memRead s (s.sp + 2), memRead s (s.sp + 1), memRead s s.sp, readReg s 7]
      fl := memRead s (s.sp + 7), pc := memRead s (s.sp + 8), sp := s.sp + 9 }) ∧
  (∀ s : State, 246 < s.sp.toNat → exec .iret s = .next (stoppedWith .stackFault 0 s))

/-- HLT sets run to HALTED, halt_cause to Hlt and halt_info to 0 and changes nothing else, pc included (decision D15 of
the spec); and HLT is final: no step leads on from there. The opcode byte is decision D2 of the spec. Stated: R181. -/
def Obligations.HltHaltsTheEngine : Prop :=
  encode .hlt = [0x01] ∧
  (∀ s : State, exec .hlt s = .next { s with run := .halted, haltCause := .hlt, haltInfo := 0 }) ∧
  (∀ s t u : State, exec .hlt s = .next t → step t ≠ .next u)

/-- For every instruction: if some operand byte used as a register index is above 7, executing it halts the engine with
RegIndexFault and the first such byte in halt_info, and nothing else changes, whatever other fault the instruction
could raise (decision D6 of the spec). Stated: R213. -/
def Obligations.BadRegisterOperandIsReportedFirst : Prop :=
  ∀ (i : Instr) (s : State) (k : Byte), firstBadReg i = some k →
    exec i s = .next (stoppedWith .regIndexFault k s)

/-- If the fetched byte is none of the twenty-one of the table, dispatch halts the engine with UnrecognizedOpcode and
that byte in halt_info; nothing else changes and nothing is emitted, whatever the operand bytes. Stated: R211. -/
def Obligations.UnrecognizedOpcodeStopsWithTheByte : Prop :=
  ∀ (s : State) (ir a b : Byte), ir ∉ baseBytes → ir ∉ extBytes →
    dispatch ir a b s = .next (stoppedWith .unrecognizedOpcode ir s)

/-- The model's form (log entry 9, DEDUCED): a fatal condition of the spec is a next state with run = HALTED, no fault
and no refusal, so for every instruction and every state exec answers a next state, and so does engineCycle, for every
state and every tick. Both are functions defined on HALTED states too, where the spec defines no cycle (R110, R111);
what they answer there is the model's alone, and step does not use it. Derived from: 30_encoding.md R90;
40_engine_cycle.md R110, R111; 60_exceptions.md R215. -/
def Obligations.EveryInstructionAnswersANextState : Prop :=
  (∀ (i : Instr) (s : State), ∃ t, exec i s = .next t) ∧
  (∀ (s : State) (tick : Bool), ∃ t, engineCycle tick s = .next t)

/-- In a RUNNING state, if an instruction halts the engine, its cause is one the complete list of R216 gives that
instruction (Hlt for HLT), and nothing but run, halt_cause and halt_info differs from before; if it does not halt,
these three are unchanged. Derived from: 60_exceptions.md R215, R216; 40_engine_cycle.md R122. -/
def Obligations.HaltingInstructionsArePrecise : Prop :=
  ∀ (i : Instr) (s t : State), s.run = .running → exec i s = .next t →
    (t.run = .halted → t.haltCause ∈ mayRaise i ∧ t = stoppedWith t.haltCause t.haltInfo s) ∧
    (t.run = .running → t.haltCause = s.haltCause ∧ t.haltInfo = s.haltInfo)

/-- None is 0, Hlt 1, UnrecognizedOpcode 2, StackFault 3, RegIndexFault 4, DivideByZero 5 (decision D15 of the spec); no
two causes share a code. Derived from: 10_state.md R32; 60_exceptions.md R210. -/
def Obligations.HaltCodesAreTheTables : Prop :=
  haltCode .none = 0 ∧ haltCode .hlt = 1 ∧ haltCode .unrecognizedOpcode = 2 ∧ haltCode .stackFault = 3 ∧
  haltCode .regIndexFault = 4 ∧ haltCode .divideByZero = 5 ∧ (∀ c d : HaltCause, haltCode c = haltCode d → c = d)

/-- The check succeeds exactly when bit 0 of x[5] and of x[6] are 1 (decision D9 of the spec); nothing else gates it;
when it fails phase 1 changes nothing, when it succeeds phase 1 is the entry. Stated: R225. -/
def Obligations.InterruptIsTakenOnBitZeroOfBoth : Prop :=
  ∀ s : State,
    (interruptTaken s = true ↔ (readReg s 5).toNat % 2 = 1 ∧ (readReg s 6).toNat % 2 = 1) ∧
    interruptCheck s = if (readReg s 5).toNat % 2 = 1 ∧ (readReg s 6).toNat % 2 = 1 then interruptEntry s else s

/-- With at least nine cells below sp, entry leaves pc, fl, x[0], ..., x[6] in the cells sp - 1 down to sp - 9, sp
lowered by 9, bit 0 of x[6] clear with its other bits kept, pc the byte at 0xF8 read after the frame; every other
cell and register, fl, the status outputs and out are unchanged. With fewer than nine it raises StackFault and
changes nothing else (decision D5). The push order is decision D12 of the spec, the clear after the save its
decision D11. The hypothesis is a canonical memory (log entry 8), which every step keeps. Stated: R226. -/
def Obligations.InterruptEntrySavesNineBytesAndVectors : Prop :=
  (∀ s : State, s.sp.toNat < 9 → interruptEntry s = stoppedWith .stackFault 0 s) ∧
  (∀ s : State, Memory.wf s.mem = true → 9 ≤ s.sp.toNat →
    let t := interruptEntry s
    memRead t (s.sp - 1) = s.pc ∧ memRead t (s.sp - 2) = s.fl ∧ memRead t (s.sp - 3) = readReg s 0 ∧
    memRead t (s.sp - 4) = readReg s 1 ∧ memRead t (s.sp - 5) = readReg s 2 ∧ memRead t (s.sp - 6) = readReg s 3 ∧
    memRead t (s.sp - 7) = readReg s 4 ∧ memRead t (s.sp - 8) = readReg s 5 ∧ memRead t (s.sp - 9) = readReg s 6 ∧
    (∀ a : Byte, a.toNat < s.sp.toNat - 9 ∨ s.sp.toNat ≤ a.toNat → memRead t a = memRead s a) ∧
    t.sp = s.sp - 9 ∧ t.pc = memRead t 0xF8 ∧
    readReg t 6 = readReg s 6 &&& 0xFE ∧ (∀ r : Fin 8, r ≠ 6 → readReg t r = readReg s r) ∧
    t.fl = s.fl ∧ t.run = s.run ∧ t.haltCause = s.haltCause ∧ t.haltInfo = s.haltInfo ∧ t.out = s.out)

/-- For the other value of the parameter: the entry is the same but that the frame's copy of x[6] has bit 0 clear; the
live x[6] has bit 0 clear either way. The hypothesis is a canonical memory (log entry 8), which every step keeps.
Derived from: 60_exceptions.md R227; 92_eei_decisions.md D11. -/
def Obligations.ClearBeforeSaveChangesOnlyTheSavedStatus : Prop :=
  ∀ s : State, Memory.wf s.mem = true → 9 ≤ s.sp.toNat →
    let t := interruptEntryWith true s
    memRead t (s.sp - 1) = s.pc ∧ memRead t (s.sp - 2) = s.fl ∧ memRead t (s.sp - 3) = readReg s 0 ∧
    memRead t (s.sp - 4) = readReg s 1 ∧ memRead t (s.sp - 5) = readReg s 2 ∧ memRead t (s.sp - 6) = readReg s 3 ∧
    memRead t (s.sp - 7) = readReg s 4 ∧ memRead t (s.sp - 8) = readReg s 5 ∧ memRead t (s.sp - 9) = readReg s 6 &&& 0xFE ∧
    (∀ a : Byte, a.toNat < s.sp.toNat - 9 ∨ s.sp.toNat ≤ a.toNat → memRead t a = memRead s a) ∧
    t.sp = s.sp - 9 ∧ t.pc = memRead t 0xF8 ∧
    readReg t 6 = readReg s 6 &&& 0xFE ∧ (∀ r : Fin 8, r ≠ 6 → readReg t r = readReg s r) ∧
    t.fl = s.fl ∧ t.run = s.run ∧ t.haltCause = s.haltCause ∧ t.haltInfo = s.haltInfo ∧ t.out = s.out

/-- When the interrupt is taken and sp is below 9, the cycle ends HALTED with StackFault: nothing is pushed, the status
bit stays set, no vector is read, pc stays, no instruction is fetched, whatever the tick (decision D5 of the spec).
Stated: R228. -/
def Obligations.EntryWithoutRoomIsAStackFault : Prop :=
  ∀ (s : State) (tick : Bool), interruptTaken s = true → s.sp.toNat < 9 →
    engineCycle tick s = .next (stoppedWith .stackFault 0 s)

/-- When the interrupt is taken with room for the frame, the cycle goes on with the clock advance and the fetch at the
pc the entry left: the instruction at the old pc is not fetched, whatever it is (decision D23 of the spec). Derived
from: 40_engine_cycle.md R112; 60_exceptions.md R230. -/
def Obligations.TheHandlerRunsInTheEntryCycle : Prop :=
  ∀ (s : State) (tick : Bool), s.run = .running → interruptTaken s = true → 9 ≤ s.sp.toNat →
    engineCycle tick s = fetchAndDispatch (latchTick tick (interruptEntry s))

/-- With tick true the clock advance sets bit 0 of x[6], whatever the mask; with tick false, or with the bit already
set, it changes nothing: ticks are not counted. This holds for every tick, so for every value of the model's free
value Config.timer (log entry 1). Derived from: 60_exceptions.md R222, R223; 40_engine_cycle.md R113. -/
def Obligations.TickSetsTheStatusBitOnly : Prop :=
  ∀ s : State,
    latchTick true s = { s with x := s.x.set 6 (readReg s 6 ||| 1) } ∧
    latchTick false s = s ∧
    (∀ tick : Bool, (readReg s 6).toNat % 2 = 1 → latchTick tick s = s)

/-- With at least nine cells below sp, executing IRET in the state entry leaves restores every register, fl, pc, sp and
all else of the state before the entry, but for the frame's bytes, which stay in memory. The hypothesis is a canonical
memory (log entry 8), which every step keeps. Derived from: 46_system.md R180; 60_exceptions.md R226, R231. -/
def Obligations.ReturnUndoesEntry : Prop :=
  ∀ s : State, Memory.wf s.mem = true → 9 ≤ s.sp.toNat →
    exec .iret (interruptEntry s) = .next { s with mem := (interruptEntry s).mem }

/-- Under the spec's order (clear after save) IRET of an untouched frame leaves the interrupt pending and permitted
again; with IS_CLEAR_BEFORE_SAVE true it does not. The hypothesis is a canonical memory (log entry 8), which every step
keeps. Derived from: 70_reset_and_hazards.md R260; 60_exceptions.md R227. -/
def Obligations.ReturnRaisesTheInterruptAgain : Prop :=
  ∀ s : State, Memory.wf s.mem = true → interruptTaken s = true → 9 ≤ s.sp.toNat →
    (∃ t, exec .iret (interruptEntry s) = .next t ∧ interruptTaken t = true) ∧
    (∃ t, exec .iret (interruptEntryWith true s) = .next t ∧ interruptTaken t = false)

/-- From any state with sp not 0, PUSH Rr succeeds and POP Rq after it succeeds, leaving sp as before, x[q] equal to the
old x[r], every other register as before, and the pushed byte in the cell sp - 1. The hypothesis is a canonical
memory (log entry 8), which every step keeps. Derived from: 43_stack.md R154. -/
def Obligations.PushThenPopRoundTrips : Prop :=
  ∀ (s : State) (r q : Fin 8), Memory.wf s.mem = true → s.sp ≠ 0 →
    ∃ t u, exec (.push (regByte r)) s = .next t ∧ exec (.pop (regByte q)) t = .next u ∧
      u.sp = s.sp ∧ u.x = s.x.set q (readReg s r) ∧ memRead u (s.sp - 1) = readReg s r ∧ u.pc = s.pc + 4

/-- After a CALL, in any state with the same sp and the same byte in the cell at sp, RET sets pc to the instruction
following the CALL and changes nothing else (decisions D7 and D8 of the spec). The hypothesis is a canonical memory (log
entry 8), which every step keeps. Derived from: 44_control_flow.md R160, R161; 95_test_vectors.md S8. -/
def Obligations.RetResumesAfterTheCall : Prop :=
  ∀ (s u : State) (ra : Fin 8), Memory.wf s.mem = true →
    ∃ t, exec (.call (regByte ra)) s = .next t ∧ t.pc = readReg s ra ∧ t.sp = s.sp ∧
      (u.sp = t.sp → memRead u u.sp = memRead t t.sp → exec .ret u = .next { u with pc := s.pc + 2 })

/-- For the other value of CALL_RET_DISCIPLINE: CALL pushes pc + 2 below sp and jumps, StackFault at sp = 0; RET pops
pc, StackFault at sp = 255; a register byte above 7 raises RegIndexFault. Derived from: 44_control_flow.md R163;
92_eei_decisions.md D7. -/
def Obligations.SymmetricDisciplinePushesAndPops : Prop :=
  (∀ (s : State) (ra : Fin 8), s.sp ≠ 0 → callWith .symmetric (regByte ra) s =
    { s with mem := Memory.write s.mem (s.sp.toNat - 1) (s.pc + 2), sp := s.sp - 1, pc := readReg s ra }) ∧
  (∀ (s : State) (ra : Fin 8), s.sp = 0 → callWith .symmetric (regByte ra) s = stoppedWith .stackFault 0 s) ∧
  (∀ (s : State) (a : Byte), 7 < a.toNat → callWith .symmetric a s = stoppedWith .regIndexFault a s) ∧
  (∀ s : State, s.sp ≠ 255 → retWith .symmetric s = { s with pc := memRead s s.sp, sp := s.sp + 1 }) ∧
  (∀ s : State, s.sp = 255 → retWith .symmetric s = stoppedWith .stackFault 0 s)

/-- If an instruction answers a next state with another sp, it is PUSH, POP or IRET. Derived from: 10_state.md R28. -/
def Obligations.OnlyStackInstructionsMoveSp : Prop :=
  ∀ (i : Instr) (s t : State), exec i s = .next t → t.sp ≠ s.sp →
    (∃ a, i = .push a) ∨ (∃ a, i = .pop a) ∨ i = .iret

/-- If an instruction answers a next state with another fl, it is CMP or IRET: no arithmetic, logic, move, stack, output
or control instruction changes a bit of it. Derived from: 10_state.md R30; 42_alu.md R145;
47_scope_named_extension.md R198. -/
def Obligations.OnlyCmpAndIretWriteFlags : Prop :=
  ∀ (i : Instr) (s t : State), exec i s = .next t → t.fl ≠ s.fl → (∃ a b, i = .cmp a b) ∨ i = .iret

/-- LDI, POP, NOT and the arithmetic and logic instructions write at most the register of operand a; IRET at most x[0]
to x[6]; every other instruction (HLT, RET, PUSH, PRN, PRA, CALL, JMP, ST, CMP, JNE) writes none. Derived from:
10_state.md R23; 44_control_flow.md R160 to R162; 45_output.md R171, R173. -/
def Obligations.RegistersOutsideTheWriteSetAreUnchanged : Prop :=
  ∀ (i : Instr) (s t : State) (r : Fin 8), exec i s = .next t → writesReg i r = false → readReg t r = readReg s r

/-- ST stores one byte at the address in x[ra], PUSH at sp - 1, CALL at sp; every other byte reads as before; an
instruction of any other form leaves every byte as it was. Derived from: 20_memory.md R52, R66; 41_load_store.md
R131; 43_stack.md R152; 44_control_flow.md R160. -/
def Obligations.BytesOutsideTheStoreAreUnchanged : Prop :=
  ∀ (i : Instr) (s t : State) (a : Byte), exec i s = .next t → storeAddress i s ≠ some a → memRead t a = memRead s a

/-- An instruction leaves out as it was or appends one event, and only PRN and PRA append; no instruction touches the
model's cycle number (log entry 1). Derived from: 10_state.md R33; 45_output.md R170, R171, R173. -/
def Obligations.OutGrowsByPrnAndPraOnly : Prop :=
  ∀ (i : Instr) (s t : State), exec i s = .next t →
    t.cycle = s.cycle ∧
    (t.out = s.out ∨ ∃ e, t.out = s.out ++ [e] ∧ ((∃ a, i = .prn a) ∨ (∃ a, i = .pra a)))

/-- In a RUNNING state: if an instruction other than CALL, RET, JMP, JNE and IRET leaves the engine RUNNING, pc advances
by exactly the length of its encoding, modulo 256; if any instruction halts the engine, pc is unchanged. Derived
from: 40_engine_cycle.md R119, R120; 95_test_vectors.md S5; 92_eei_decisions.md D15. -/
def Obligations.SequentialInstructionsAdvanceByTheirWidth : Prop :=
  ∀ (i : Instr) (s t : State), s.run = .running → exec i s = .next t →
    (t.run = .running → (∀ a, i ≠ .call a) → i ≠ .ret → (∀ a, i ≠ .jmp a) → (∀ a, i ≠ .jne a) → i ≠ .iret →
      t.pc = s.pc + BitVec.ofNat 8 (encode i).length) ∧
    (t.run = .halted → t.pc = s.pc)

/-- A cycle from a state with more events in front of out is the same cycle, with those events in front of out: the port
feeds nothing back. Derived from: 10_state.md R33; 45_output.md R170. -/
def Obligations.OutputIsNeverRead : Prop :=
  ∀ (s t : State) (tick : Bool) (es : List OutEvent), engineCycle tick s = .next t →
    engineCycle tick { s with out := es ++ s.out } = .next { t with out := es ++ t.out }

/-- Every step that answers a next state keeps out as the beginning of the new out, and advances the model's cycle
number by one (log entry 1), interrupt or not, halting or not. Derived from: 10_state.md R33; 45_output.md R170. -/
def Obligations.StepExtendsTheOutput : Prop :=
  ∀ s t : State, step s = .next t → s.out <+: t.out ∧ t.cycle = s.cycle + 1

/-- Dec(v) renders as one to three ASCII digits with value v, most significant first and with no leading zero, then the
byte 0x0A; Chr(v) as the single byte v; the rendering of a sequence is the concatenation of its events' renderings
(the newline byte and the raw byte are decision D18 of the spec). Stated: R172. -/
def Obligations.RenderingIsDecimalAndRaw : Prop :=
  (∀ v : Byte, ∃ ds : List Byte, renderEvent (.dec v) = ds ++ [0x0A] ∧
    (∀ d ∈ ds, 0x30 ≤ d.toNat ∧ d.toNat ≤ 0x39) ∧
    ds.foldl (fun n d => 10 * n + (d.toNat - 0x30)) 0 = v.toNat ∧
    1 ≤ ds.length ∧ ds.length ≤ 3 ∧ (ds.head? = some 0x30 → v = 0 ∧ ds.length = 1)) ∧
  (∀ v : Byte, renderEvent (.chr v) = [v]) ∧
  (∀ es : List OutEvent, render es = (es.map renderEvent).flatten)

/-- The model's memory is a list in one canonical form (log entry 8): two such lists with the same byte at every address
0 to 255 are the same list. Derived from: 20_memory.md R50, R51, R59. -/
def Obligations.CanonicalMemoriesThatReadAlikeAreEqual : Prop :=
  ∀ m n : Memory, Memory.wf m = true → Memory.wf n = true →
    (∀ a : Byte, Memory.read m a.toNat = Memory.read n a.toNat) → m = n

/-- At reset, and after the load of any accepted image, the invariant holds: memory is in canonical form, which is the
model's form of the spec's 256 cells (log entry 8, DEDUCED), and, as the spec says, the cause is None with info 0 while
RUNNING. Derived from: 10_state.md R31, R32, R38; 20_memory.md R50, R51; 70_reset_and_hazards.md R254. -/
def Obligations.ResetAndLaunchMeetTheInvariant : Prop :=
  Inv State.reset ∧ (∀ (image : List Byte) (t : State), launch image = .next t → Inv t)

/-- From every state that meets the invariant, a step that answers a next state leaves one that meets it. One half is
the model's form of the spec's 256 cells (log entry 8, DEDUCED): memory stays canonical, addresses rising and below 256,
no entry 0. The other half is the spec's: the cause is None exactly while RUNNING; the info is 0, or an unrecognized
byte for UnrecognizedOpcode, or a byte above 7 for RegIndexFault. Derived from: 10_state.md R31, R32; 20_memory.md R50,
R51; 60_exceptions.md R210, R215. -/
def Obligations.EveryStepKeepsTheInvariant : Prop :=
  ∀ s t : State, Inv s → step s = .next t → Inv t

/-- The interrupt check, taken or not, and the clock advance, with any tick, leave x[0] to x[5] and x[7] as they were,
and bits 7 to 1 of x[6]. Derived from: 10_state.md R22, R28; 60_exceptions.md R226. -/
def Obligations.PhasesOneAndTwoWriteOnlyStatusBitZero : Prop :=
  ∀ (s : State) (tick : Bool),
    let t := latchTick tick (interruptCheck s)
    (∀ r : Fin 8, r ≠ 6 → readReg t r = readReg s r) ∧ (readReg t 6).toNat / 2 = (readReg s 6).toNat / 2
end

