-- ==== Sys2Proof/Laws/Memory.lean ====
section
/-! SUPPORT. The laws of memory: read after write, writes leave other cells alone, and every memory operation
keeps the canonical form (20_memory.md R50, R51, R59). -/

namespace Sys2Proof.Machine


/-- The canonical form, entry by entry. -/
theorem Memory.wfFrom_cons (lo : Nat) (c : Host.Cell) (m : Memory) :
    Memory.wfFrom lo (c :: m) = true ↔ lo ≤ c.1 ∧ c.1 < 256 ∧ c.2 ≠ 0 ∧ Memory.wfFrom (c.1 + 1) m = true := by
  simp only [Memory.wfFrom, Bool.and_eq_true, decide_eq_true_eq, and_assoc]
  exact Iff.rfl

theorem imageWellFormed_iff (image : List Byte) : imageWellFormed image = true ↔ image.length ≤ 256 := by
  simp only [imageWellFormed, decide_eq_true_eq]
  exact Iff.rfl

/-- Below its first address a canonical memory reads 0. -/
theorem Memory.read_below (m : Memory) (lo a : Nat) (hm : Memory.wfFrom lo m = true) (ha : a < lo) :
    Memory.read m a = 0 := by
  induction m generalizing lo with
  | nil => rfl
  | cons c m ih =>
    simp only [Memory.wfFrom, Bool.and_eq_true, decide_eq_true_eq] at hm
    have hne : c.1 ≠ a := by omega
    simp only [Memory.read, if_neg hne]
    exact ih _ hm.2 (by omega)

/-- The canonical form from a lower address on. -/
theorem Memory.wfFrom_mono (m : Memory) (lo lo' : Nat) (hm : Memory.wfFrom lo m = true) (h : lo' ≤ lo) :
    Memory.wfFrom lo' m = true := by
  cases m with
  | nil => rfl
  | cons c m =>
    simp only [Memory.wfFrom, Bool.and_eq_true, decide_eq_true_eq] at hm ⊢
    exact ⟨⟨⟨by omega, hm.1.1.2⟩, hm.1.2⟩, hm.2⟩

/-- What `Memory.put` reads as at its own address, over a memory that lists only later ones. -/
theorem Memory.read_put_same (m : Memory) (lo a : Nat) (v : Byte) (hm : Memory.wfFrom lo m = true) (ha : a < lo) :
    Memory.read (Memory.put a v m) a = v := by
  unfold Memory.put
  split
  · rename_i hv
    rw [hv]
    exact Memory.read_below m lo a hm ha
  · simp [Memory.read]

theorem Memory.read_put_other (m : Memory) (a b : Nat) (v : Byte) (h : b ≠ a) :
    Memory.read (Memory.put a v m) b = Memory.read m b := by
  have h' : a ≠ b := fun e => h e.symm
  unfold Memory.put
  split
  · rfl
  · simp [Memory.read, h']

theorem Memory.wfFrom_put (m : Memory) (lo a : Nat) (v : Byte) (hm : Memory.wfFrom (a + 1) m = true) (hlo : lo ≤ a)
    (ha : a < 256) : Memory.wfFrom lo (Memory.put a v m) = true := by
  unfold Memory.put
  split
  · exact Memory.wfFrom_mono _ _ _ hm (by omega)
  · rename_i hv
    have hv' : decide (v ≠ 0) = true := decide_eq_true hv
    have ha' : decide (a < Config.memSize) = true := decide_eq_true ha
    simp only [Memory.wfFrom, hm, hv', ha', decide_eq_true hlo, Bool.and_self]

/-- A read after a write to the same address gives the value written. -/
theorem Memory.read_write_same (m : Memory) (lo a : Nat) (v : Byte) (hm : Memory.wfFrom lo m = true) :
    Memory.read (Memory.write m a v) a = v := by
  induction m generalizing lo with
  | nil => exact Memory.read_put_same [] (a + 1) a v rfl (by omega)
  | cons c m ih =>
    have hm0 := hm
    simp only [Memory.wfFrom, Bool.and_eq_true, decide_eq_true_eq] at hm
    unfold Memory.write
    split
    · rename_i hlt
      refine Memory.read_put_same _ (a + 1) a v ?_ (by omega)
      have hall : Memory.wfFrom c.1 (c :: m) = true := by
        simp only [Memory.wfFrom, Bool.and_eq_true, decide_eq_true_eq] at hm0 ⊢
        exact ⟨⟨⟨Nat.le_refl _, hm0.1.1.2⟩, hm0.1.2⟩, hm0.2⟩
      exact Memory.wfFrom_mono _ _ _ hall (by omega)
    · split
      · exact Memory.read_put_same _ _ a v hm.2 (by omega)
      · have hne : c.1 ≠ a := by omega
        simp only [Memory.read, if_neg hne]
        exact ih _ hm.2

/-- A write leaves every other address as it was, whatever the form of the list. -/
theorem Memory.read_write_other (m : Memory) (a b : Nat) (v : Byte) (h : b ≠ a) :
    Memory.read (Memory.write m a v) b = Memory.read m b := by
  induction m with
  | nil => exact Memory.read_put_other [] a b v h
  | cons c m ih =>
    unfold Memory.write
    split
    · exact Memory.read_put_other _ a b v h
    · split
      · have hcb : c.1 ≠ b := by omega
        rw [Memory.read_put_other _ a b v h]
        simp only [Memory.read, if_neg hcb]
      · simp only [Memory.read, ih]

/-- A write keeps the canonical form. -/
theorem Memory.wfFrom_write (m : Memory) (lo a : Nat) (v : Byte) (hm : Memory.wfFrom lo m = true)
    (hlo : lo ≤ a) (ha : a < 256) : Memory.wfFrom lo (Memory.write m a v) = true := by
  induction m generalizing lo with
  | nil => exact Memory.wfFrom_put [] lo a v rfl hlo ha
  | cons c m ih =>
    simp only [Memory.wfFrom, Bool.and_eq_true, decide_eq_true_eq] at hm
    unfold Memory.write
    split
    · refine Memory.wfFrom_put _ lo a v ?_ hlo ha
      simp only [Memory.wfFrom, Bool.and_eq_true, decide_eq_true_eq]
      exact ⟨⟨⟨by omega, hm.1.1.2⟩, hm.1.2⟩, hm.2⟩
    · split
      · exact Memory.wfFrom_put _ lo a v (Memory.wfFrom_mono _ _ _ hm.2 (by omega)) hlo ha
      · simp only [Memory.wfFrom, Bool.and_eq_true, decide_eq_true_eq]
        exact ⟨hm.1, ih _ hm.2 (by omega)⟩

/-- A write at a byte address keeps the canonical form of memory. -/
theorem Memory.wf_write (m : Memory) (a v : Byte) (hm : Memory.wf m = true) :
    Memory.wf (Memory.write m a.toNat v) = true :=
  Memory.wfFrom_write _ _ _ _ hm (Nat.zero_le _) a.isLt

/-- Loading bytes that end by address 256 keeps the canonical form. -/
theorem storeBytes_wf (vs : List Byte) (a : Nat) (m : Memory) (hm : Memory.wf m = true)
    (ha : a + vs.length ≤ 256) : Memory.wf (storeBytes vs a m) = true := by
  induction vs generalizing a m with
  | nil => exact hm
  | cons v vs ih =>
    simp only [List.length_cons] at ha
    exact ih _ _ (Memory.wfFrom_write _ _ _ _ hm (Nat.zero_le _) (by omega)) (by omega)

theorem reset_mem_wf : Memory.wf State.reset.mem = true := rfl

/-- `MemRead` after `MemWrite` of the same address (R59). -/
theorem memRead_memWrite_same (s : State) (a v : Byte) (hm : Memory.wf s.mem = true) :
    memRead (memWrite a v s) a = v := Memory.read_write_same _ _ _ _ hm

/-- `MemRead` of any other address is unchanged by `MemWrite` (R56). -/
theorem memRead_memWrite_other (s : State) (a b v : Byte) (h : b ≠ a) :
    memRead (memWrite a v s) b = memRead s b :=
  Memory.read_write_other _ _ _ _ fun e => h (BitVec.eq_of_toNat_eq e)

theorem memWrite_wf (s : State) (a v : Byte) (hm : Memory.wf s.mem = true) :
    Memory.wf (memWrite a v s).mem = true := Memory.wf_write _ _ _ hm

end Sys2Proof.Machine
end

