-- ==== Sys2Proof/Laws/State.lean ====
section
/-! SUPPORT. Each update of the state, field by field: what it writes and what it leaves, all true by rfl. -/

namespace Sys2Proof.Machine

section
variable (s : State)

@[simp] theorem memWrite_mem (a v : Byte) : (memWrite a v s).mem = Memory.write s.mem a.toNat v := rfl
@[simp] theorem memWrite_x (a v : Byte) : (memWrite a v s).x = s.x := rfl
@[simp] theorem memWrite_pc (a v : Byte) : (memWrite a v s).pc = s.pc := rfl
@[simp] theorem memWrite_sp (a v : Byte) : (memWrite a v s).sp = s.sp := rfl
@[simp] theorem memWrite_fl (a v : Byte) : (memWrite a v s).fl = s.fl := rfl
@[simp] theorem memWrite_run (a v : Byte) : (memWrite a v s).run = s.run := rfl
@[simp] theorem memWrite_haltCause (a v : Byte) : (memWrite a v s).haltCause = s.haltCause := rfl
@[simp] theorem memWrite_haltInfo (a v : Byte) : (memWrite a v s).haltInfo = s.haltInfo := rfl
@[simp] theorem memWrite_out (a v : Byte) : (memWrite a v s).out = s.out := rfl
@[simp] theorem memWrite_cycle (a v : Byte) : (memWrite a v s).cycle = s.cycle := rfl
@[simp] theorem readReg_memWrite (a v : Byte) (q : Fin 8) : readReg (memWrite a v s) q = readReg s q := rfl

@[simp] theorem writeReg_mem (r : Fin 8) (v : Byte) : (writeReg r v s).mem = s.mem := rfl
@[simp] theorem writeReg_x (r : Fin 8) (v : Byte) : (writeReg r v s).x = s.x.set r v := rfl
@[simp] theorem writeReg_pc (r : Fin 8) (v : Byte) : (writeReg r v s).pc = s.pc := rfl
@[simp] theorem writeReg_sp (r : Fin 8) (v : Byte) : (writeReg r v s).sp = s.sp := rfl
@[simp] theorem writeReg_fl (r : Fin 8) (v : Byte) : (writeReg r v s).fl = s.fl := rfl
@[simp] theorem writeReg_run (r : Fin 8) (v : Byte) : (writeReg r v s).run = s.run := rfl
@[simp] theorem writeReg_haltCause (r : Fin 8) (v : Byte) : (writeReg r v s).haltCause = s.haltCause := rfl
@[simp] theorem writeReg_haltInfo (r : Fin 8) (v : Byte) : (writeReg r v s).haltInfo = s.haltInfo := rfl
@[simp] theorem writeReg_out (r : Fin 8) (v : Byte) : (writeReg r v s).out = s.out := rfl
@[simp] theorem writeReg_cycle (r : Fin 8) (v : Byte) : (writeReg r v s).cycle = s.cycle := rfl
@[simp] theorem memRead_writeReg (r : Fin 8) (v : Byte) (c : Byte) : memRead (writeReg r v s) c = memRead s c := rfl

@[simp] theorem setPc_mem (t : Byte) : (setPc t s).mem = s.mem := rfl
@[simp] theorem setPc_x (t : Byte) : (setPc t s).x = s.x := rfl
@[simp] theorem setPc_pc (t : Byte) : (setPc t s).pc = t := rfl
@[simp] theorem setPc_sp (t : Byte) : (setPc t s).sp = s.sp := rfl
@[simp] theorem setPc_fl (t : Byte) : (setPc t s).fl = s.fl := rfl
@[simp] theorem setPc_run (t : Byte) : (setPc t s).run = s.run := rfl
@[simp] theorem setPc_haltCause (t : Byte) : (setPc t s).haltCause = s.haltCause := rfl
@[simp] theorem setPc_haltInfo (t : Byte) : (setPc t s).haltInfo = s.haltInfo := rfl
@[simp] theorem setPc_out (t : Byte) : (setPc t s).out = s.out := rfl
@[simp] theorem setPc_cycle (t : Byte) : (setPc t s).cycle = s.cycle := rfl
@[simp] theorem readReg_setPc (t : Byte) (q : Fin 8) : readReg (setPc t s) q = readReg s q := rfl
@[simp] theorem memRead_setPc (t : Byte) (c : Byte) : memRead (setPc t s) c = memRead s c := rfl

@[simp] theorem setSp_mem (v : Byte) : (setSp v s).mem = s.mem := rfl
@[simp] theorem setSp_x (v : Byte) : (setSp v s).x = s.x := rfl
@[simp] theorem setSp_pc (v : Byte) : (setSp v s).pc = s.pc := rfl
@[simp] theorem setSp_sp (v : Byte) : (setSp v s).sp = v := rfl
@[simp] theorem setSp_fl (v : Byte) : (setSp v s).fl = s.fl := rfl
@[simp] theorem setSp_run (v : Byte) : (setSp v s).run = s.run := rfl
@[simp] theorem setSp_haltCause (v : Byte) : (setSp v s).haltCause = s.haltCause := rfl
@[simp] theorem setSp_haltInfo (v : Byte) : (setSp v s).haltInfo = s.haltInfo := rfl
@[simp] theorem setSp_out (v : Byte) : (setSp v s).out = s.out := rfl
@[simp] theorem setSp_cycle (v : Byte) : (setSp v s).cycle = s.cycle := rfl
@[simp] theorem readReg_setSp (v : Byte) (q : Fin 8) : readReg (setSp v s) q = readReg s q := rfl
@[simp] theorem memRead_setSp (v : Byte) (c : Byte) : memRead (setSp v s) c = memRead s c := rfl

@[simp] theorem setFl_mem (v : Byte) : (setFl v s).mem = s.mem := rfl
@[simp] theorem setFl_x (v : Byte) : (setFl v s).x = s.x := rfl
@[simp] theorem setFl_pc (v : Byte) : (setFl v s).pc = s.pc := rfl
@[simp] theorem setFl_sp (v : Byte) : (setFl v s).sp = s.sp := rfl
@[simp] theorem setFl_fl (v : Byte) : (setFl v s).fl = v := rfl
@[simp] theorem setFl_run (v : Byte) : (setFl v s).run = s.run := rfl
@[simp] theorem setFl_haltCause (v : Byte) : (setFl v s).haltCause = s.haltCause := rfl
@[simp] theorem setFl_haltInfo (v : Byte) : (setFl v s).haltInfo = s.haltInfo := rfl
@[simp] theorem setFl_out (v : Byte) : (setFl v s).out = s.out := rfl
@[simp] theorem setFl_cycle (v : Byte) : (setFl v s).cycle = s.cycle := rfl
@[simp] theorem readReg_setFl (v : Byte) (q : Fin 8) : readReg (setFl v s) q = readReg s q := rfl
@[simp] theorem memRead_setFl (v : Byte) (c : Byte) : memRead (setFl v s) c = memRead s c := rfl

@[simp] theorem emit_mem (e : OutEvent) : (emit e s).mem = s.mem := rfl
@[simp] theorem emit_x (e : OutEvent) : (emit e s).x = s.x := rfl
@[simp] theorem emit_pc (e : OutEvent) : (emit e s).pc = s.pc := rfl
@[simp] theorem emit_sp (e : OutEvent) : (emit e s).sp = s.sp := rfl
@[simp] theorem emit_fl (e : OutEvent) : (emit e s).fl = s.fl := rfl
@[simp] theorem emit_run (e : OutEvent) : (emit e s).run = s.run := rfl
@[simp] theorem emit_haltCause (e : OutEvent) : (emit e s).haltCause = s.haltCause := rfl
@[simp] theorem emit_haltInfo (e : OutEvent) : (emit e s).haltInfo = s.haltInfo := rfl
@[simp] theorem emit_out (e : OutEvent) : (emit e s).out = s.out ++ [e] := rfl
@[simp] theorem emit_cycle (e : OutEvent) : (emit e s).cycle = s.cycle := rfl
@[simp] theorem readReg_emit (e : OutEvent) (q : Fin 8) : readReg (emit e s) q = readReg s q := rfl
@[simp] theorem memRead_emit (e : OutEvent) (c : Byte) : memRead (emit e s) c = memRead s c := rfl

@[simp] theorem raise_mem (c : HaltCause) (k : Byte) : (raise c k s).mem = s.mem := rfl
@[simp] theorem raise_x (c : HaltCause) (k : Byte) : (raise c k s).x = s.x := rfl
@[simp] theorem raise_pc (c : HaltCause) (k : Byte) : (raise c k s).pc = s.pc := rfl
@[simp] theorem raise_sp (c : HaltCause) (k : Byte) : (raise c k s).sp = s.sp := rfl
@[simp] theorem raise_fl (c : HaltCause) (k : Byte) : (raise c k s).fl = s.fl := rfl
@[simp] theorem raise_run (c : HaltCause) (k : Byte) : (raise c k s).run = .halted := rfl
@[simp] theorem raise_haltCause (c : HaltCause) (k : Byte) : (raise c k s).haltCause = c := rfl
@[simp] theorem raise_haltInfo (c : HaltCause) (k : Byte) : (raise c k s).haltInfo = k := rfl
@[simp] theorem raise_out (c : HaltCause) (k : Byte) : (raise c k s).out = s.out := rfl
@[simp] theorem raise_cycle (c : HaltCause) (k : Byte) : (raise c k s).cycle = s.cycle := rfl
@[simp] theorem readReg_raise (c : HaltCause) (k : Byte) (q : Fin 8) : readReg (raise c k s) q = readReg s q := rfl
@[simp] theorem memRead_raise (c : HaltCause) (k : Byte) (a : Byte) : memRead (raise c k s) a = memRead s a := rfl

@[simp] theorem advance_mem (o : Op) : (advance o s).mem = s.mem := rfl
@[simp] theorem advance_x (o : Op) : (advance o s).x = s.x := rfl
@[simp] theorem advance_pc (o : Op) : (advance o s).pc = nextPc o s := rfl
@[simp] theorem advance_sp (o : Op) : (advance o s).sp = s.sp := rfl
@[simp] theorem advance_fl (o : Op) : (advance o s).fl = s.fl := rfl
@[simp] theorem advance_run (o : Op) : (advance o s).run = s.run := rfl
@[simp] theorem advance_haltCause (o : Op) : (advance o s).haltCause = s.haltCause := rfl
@[simp] theorem advance_haltInfo (o : Op) : (advance o s).haltInfo = s.haltInfo := rfl
@[simp] theorem advance_out (o : Op) : (advance o s).out = s.out := rfl
@[simp] theorem advance_cycle (o : Op) : (advance o s).cycle = s.cycle := rfl
@[simp] theorem readReg_advance (o : Op) (q : Fin 8) : readReg (advance o s) q = readReg s q := rfl
@[simp] theorem memRead_advance (o : Op) (c : Byte) : memRead (advance o s) c = memRead s c := rfl

@[simp] theorem push8_mem (v : Byte) : (push8 v s).mem = Memory.write s.mem (s.sp - 1).toNat v := rfl
@[simp] theorem push8_x (v : Byte) : (push8 v s).x = s.x := rfl
@[simp] theorem push8_pc (v : Byte) : (push8 v s).pc = s.pc := rfl
@[simp] theorem push8_sp (v : Byte) : (push8 v s).sp = s.sp - 1 := rfl
@[simp] theorem push8_fl (v : Byte) : (push8 v s).fl = s.fl := rfl
@[simp] theorem push8_run (v : Byte) : (push8 v s).run = s.run := rfl
@[simp] theorem push8_haltCause (v : Byte) : (push8 v s).haltCause = s.haltCause := rfl
@[simp] theorem push8_haltInfo (v : Byte) : (push8 v s).haltInfo = s.haltInfo := rfl
@[simp] theorem push8_out (v : Byte) : (push8 v s).out = s.out := rfl
@[simp] theorem push8_cycle (v : Byte) : (push8 v s).cycle = s.cycle := rfl
@[simp] theorem readReg_push8 (v : Byte) (q : Fin 8) : readReg (push8 v s) q = readReg s q := rfl

@[simp] theorem popReg_mem (r : Fin 8) : (popReg r s).mem = s.mem := rfl
@[simp] theorem popReg_x (r : Fin 8) : (popReg r s).x = s.x.set r (memRead s s.sp) := rfl
@[simp] theorem popReg_pc (r : Fin 8) : (popReg r s).pc = s.pc := rfl
@[simp] theorem popReg_sp (r : Fin 8) : (popReg r s).sp = s.sp + 1 := rfl
@[simp] theorem popReg_fl (r : Fin 8) : (popReg r s).fl = s.fl := rfl
@[simp] theorem popReg_run (r : Fin 8) : (popReg r s).run = s.run := rfl
@[simp] theorem popReg_haltCause (r : Fin 8) : (popReg r s).haltCause = s.haltCause := rfl
@[simp] theorem popReg_haltInfo (r : Fin 8) : (popReg r s).haltInfo = s.haltInfo := rfl
@[simp] theorem popReg_out (r : Fin 8) : (popReg r s).out = s.out := rfl
@[simp] theorem popReg_cycle (r : Fin 8) : (popReg r s).cycle = s.cycle := rfl
@[simp] theorem memRead_popReg (r : Fin 8) (c : Byte) : memRead (popReg r s) c = memRead s c := rfl

@[simp] theorem popFl_mem : (popFl s).mem = s.mem := rfl
@[simp] theorem popFl_x : (popFl s).x = s.x := rfl
@[simp] theorem popFl_pc : (popFl s).pc = s.pc := rfl
@[simp] theorem popFl_sp : (popFl s).sp = s.sp + 1 := rfl
@[simp] theorem popFl_fl : (popFl s).fl = memRead s s.sp := rfl
@[simp] theorem popFl_run : (popFl s).run = s.run := rfl
@[simp] theorem popFl_haltCause : (popFl s).haltCause = s.haltCause := rfl
@[simp] theorem popFl_haltInfo : (popFl s).haltInfo = s.haltInfo := rfl
@[simp] theorem popFl_out : (popFl s).out = s.out := rfl
@[simp] theorem popFl_cycle : (popFl s).cycle = s.cycle := rfl
@[simp] theorem readReg_popFl (q : Fin 8) : readReg (popFl s) q = readReg s q := rfl
@[simp] theorem memRead_popFl (c : Byte) : memRead (popFl s) c = memRead s c := rfl

@[simp] theorem popPc_mem : (popPc s).mem = s.mem := rfl
@[simp] theorem popPc_x : (popPc s).x = s.x := rfl
@[simp] theorem popPc_pc : (popPc s).pc = memRead s s.sp := rfl
@[simp] theorem popPc_sp : (popPc s).sp = s.sp + 1 := rfl
@[simp] theorem popPc_fl : (popPc s).fl = s.fl := rfl
@[simp] theorem popPc_run : (popPc s).run = s.run := rfl
@[simp] theorem popPc_haltCause : (popPc s).haltCause = s.haltCause := rfl
@[simp] theorem popPc_haltInfo : (popPc s).haltInfo = s.haltInfo := rfl
@[simp] theorem popPc_out : (popPc s).out = s.out := rfl
@[simp] theorem popPc_cycle : (popPc s).cycle = s.cycle := rfl
@[simp] theorem readReg_popPc (q : Fin 8) : readReg (popPc s) q = readReg s q := rfl
@[simp] theorem memRead_popPc (c : Byte) : memRead (popPc s) c = memRead s c := rfl

@[simp] theorem clearStatus_mem : (clearStatus s).mem = s.mem := rfl
@[simp] theorem clearStatus_x : (clearStatus s).x = s.x.set 6 (readReg s 6 &&& 0xFE) := rfl
@[simp] theorem clearStatus_pc : (clearStatus s).pc = s.pc := rfl
@[simp] theorem clearStatus_sp : (clearStatus s).sp = s.sp := rfl
@[simp] theorem clearStatus_fl : (clearStatus s).fl = s.fl := rfl
@[simp] theorem clearStatus_run : (clearStatus s).run = s.run := rfl
@[simp] theorem clearStatus_haltCause : (clearStatus s).haltCause = s.haltCause := rfl
@[simp] theorem clearStatus_haltInfo : (clearStatus s).haltInfo = s.haltInfo := rfl
@[simp] theorem clearStatus_out : (clearStatus s).out = s.out := rfl
@[simp] theorem clearStatus_cycle : (clearStatus s).cycle = s.cycle := rfl
@[simp] theorem memRead_clearStatus (c : Byte) : memRead (clearStatus s) c = memRead s c := rfl

@[simp] theorem vectorPc_mem : (vectorPc s).mem = s.mem := rfl
@[simp] theorem vectorPc_x : (vectorPc s).x = s.x := rfl
@[simp] theorem vectorPc_pc : (vectorPc s).pc = memRead s 0xF8 := rfl
@[simp] theorem vectorPc_sp : (vectorPc s).sp = s.sp := rfl
@[simp] theorem vectorPc_fl : (vectorPc s).fl = s.fl := rfl
@[simp] theorem vectorPc_run : (vectorPc s).run = s.run := rfl
@[simp] theorem vectorPc_haltCause : (vectorPc s).haltCause = s.haltCause := rfl
@[simp] theorem vectorPc_haltInfo : (vectorPc s).haltInfo = s.haltInfo := rfl
@[simp] theorem vectorPc_out : (vectorPc s).out = s.out := rfl
@[simp] theorem vectorPc_cycle : (vectorPc s).cycle = s.cycle := rfl
@[simp] theorem readReg_vectorPc (q : Fin 8) : readReg (vectorPc s) q = readReg s q := rfl
@[simp] theorem memRead_vectorPc (c : Byte) : memRead (vectorPc s) c = memRead s c := rfl

@[simp] theorem latchTick_mem (k : Bool) : (latchTick k s).mem = s.mem := rfl
@[simp] theorem latchTick_x (k : Bool) : (latchTick k s).x = s.x.set 6 (readReg s 6 ||| (if k then 0x01 else 0x00)) := rfl
@[simp] theorem latchTick_pc (k : Bool) : (latchTick k s).pc = s.pc := rfl
@[simp] theorem latchTick_sp (k : Bool) : (latchTick k s).sp = s.sp := rfl
@[simp] theorem latchTick_fl (k : Bool) : (latchTick k s).fl = s.fl := rfl
@[simp] theorem latchTick_run (k : Bool) : (latchTick k s).run = s.run := rfl
@[simp] theorem latchTick_haltCause (k : Bool) : (latchTick k s).haltCause = s.haltCause := rfl
@[simp] theorem latchTick_haltInfo (k : Bool) : (latchTick k s).haltInfo = s.haltInfo := rfl
@[simp] theorem latchTick_out (k : Bool) : (latchTick k s).out = s.out := rfl
@[simp] theorem latchTick_cycle (k : Bool) : (latchTick k s).cycle = s.cycle := rfl
@[simp] theorem memRead_latchTick (k : Bool) (c : Byte) : memRead (latchTick k s) c = memRead s c := rfl

end

end Sys2Proof.Machine
end

