-- ==== Sys2Proof/Laws/Ops.lean ====
section
/-! SUPPORT. What each shared operation can do: the register file, the operand forms, the pc advance, the frame's
pushes. -/

namespace Sys2Proof.Machine

/-! ### Registers -/

@[simp] theorem readReg_writeReg_same (s : State) (r : Fin 8) (v : Byte) : readReg (writeReg r v s) r = v := by
  simp [readReg, writeReg]

theorem readReg_writeReg_other (s : State) (r q : Fin 8) (v : Byte) (h : q ≠ r) :
    readReg (writeReg r v s) q = readReg s q := by
  have h' : (r : Nat) ≠ (q : Nat) := fun e => h (Fin.ext e.symm)
  simp [readReg, writeReg, h']

/-- Writing a register's own value changes nothing. -/
theorem writeReg_readReg (s : State) (r : Fin 8) : writeReg r (readReg s r) s = s := by
  simp [readReg, writeReg]

/-! ### Operand forms -/

theorem regIndex_regByte (r : Fin 8) : regIndex (regByte r) = some r := by revert r; decide

theorem regIndex_above (k : Byte) (h : 7 < k.toNat) : regIndex k = none := by
  simp [regIndex, show ¬ k.toNat < 8 by omega]

/-- The operand bytes 0 to 7 are exactly the `regByte`s. -/
theorem regByte_iff (k : Byte) : k.toNat ≤ 7 ↔ ∃ r, k = regByte r := by
  constructor
  · intro h
    refine ⟨⟨k.toNat, by omega⟩, ?_⟩
    simp [regByte]
  · rintro ⟨r, rfl⟩
    revert r
    decide

theorem regIndex_some_iff (k : Byte) (r : Fin 8) : regIndex k = some r ↔ k = regByte r := by
  constructor
  · intro h
    unfold regIndex at h
    split at h
    · cases h
      simp [regByte]
    · cases h
  · rintro rfl
    exact regIndex_regByte r

theorem withReg_regByte (r : Fin 8) (s : State) (f : Fin 8 → State) : withReg (regByte r) s f = f r := by
  simp [withReg, regIndex_regByte]

theorem withReg_above (a : Byte) (s : State) (f : Fin 8 → State) (h : 7 < a.toNat) :
    withReg a s f = raise .regIndexFault a s := by
  simp [withReg, regIndex_above a h]

/-- The two outcomes of a register operand: the effect on the register it names, or RegIndexFault. -/
theorem withReg_cases (a : Byte) (s : State) (f : Fin 8 → State) :
    (∃ r, a = regByte r ∧ withReg a s f = f r) ∨ (7 < a.toNat ∧ withReg a s f = raise .regIndexFault a s) := by
  by_cases h : a.toNat ≤ 7
  · obtain ⟨r, rfl⟩ := (regByte_iff a).1 h
    exact .inl ⟨r, rfl, withReg_regByte r s f⟩
  · exact .inr ⟨by omega, withReg_above a s f (by omega)⟩

theorem withRegs_regByte (ra rb : Fin 8) (s : State) (f : Fin 8 → Fin 8 → State) :
    withRegs (regByte ra) (regByte rb) s f = f ra rb := by
  simp [withRegs, withReg_regByte]

/-- The three outcomes of two register operands, operand a checked first. -/
theorem withRegs_cases (a b : Byte) (s : State) (f : Fin 8 → Fin 8 → State) :
    (∃ ra rb, a = regByte ra ∧ b = regByte rb ∧ withRegs a b s f = f ra rb) ∨
    (7 < a.toNat ∧ withRegs a b s f = raise .regIndexFault a s) ∨
    (a.toNat ≤ 7 ∧ 7 < b.toNat ∧ withRegs a b s f = raise .regIndexFault b s) := by
  rcases withReg_cases a s (fun ra => withReg b s fun rb => f ra rb) with ⟨ra, ha, hw⟩ | ⟨ha, hw⟩
  · rcases withReg_cases b s (fun rb => f ra rb) with ⟨rb, hb, hv⟩ | ⟨hb, hv⟩
    · exact .inl ⟨ra, rb, ha, hb, hw.trans hv⟩
    · exact .inr (.inr ⟨(regByte_iff a).2 ⟨ra, ha⟩, hb, hw.trans hv⟩)
  · exact .inr (.inl ⟨ha, hw⟩)

/-- What holds of the effect on every register, and of the RegIndexFault, holds of a one-register instruction. -/
theorem withReg_elim {P : State → Prop} (a : Byte) (s : State) (f : Fin 8 → State) (hf : ∀ r, a = regByte r → P (f r))
    (hr : 7 < a.toNat → P (raise .regIndexFault a s)) : P (withReg a s f) := by
  rcases withReg_cases a s f with ⟨r, h, e⟩ | ⟨h, e⟩
  · exact e ▸ hf r h
  · exact e ▸ hr h

/-- What holds of the effect on every pair of registers, and of both RegIndexFaults, holds of a two-register
instruction. -/
theorem withRegs_elim {P : State → Prop} (a b : Byte) (s : State) (f : Fin 8 → Fin 8 → State)
    (hf : ∀ ra rb, a = regByte ra → b = regByte rb → P (f ra rb))
    (ha : 7 < a.toNat → P (raise .regIndexFault a s)) (hb : 7 < b.toNat → P (raise .regIndexFault b s)) :
    P (withRegs a b s f) := by
  rcases withRegs_cases a b s f with ⟨ra, rb, h, h', e⟩ | ⟨h, e⟩ | ⟨-, h, e⟩
  · exact e ▸ hf ra rb h h'
  · exact e ▸ ha h
  · exact e ▸ hb h

/-! ### The pc advance -/

theorem decodeWidth_f2 (o : Op) (h : o ∈ [Op.ldi, .st, .add, .mul, .cmp, .sub, .div, .and, .or, .xor]) (s : State) :
    nextPc o s = s.pc + 3 := by
  fin_cases h <;> rfl

theorem decodeWidth_f1 (o : Op) (h : o ∈ [Op.push, .pop, .prn, .pra, .call, .jmp, .jne, .not]) (s : State) :
    nextPc o s = s.pc + 2 := by
  fin_cases h <;> rfl

/-! ### The stack -/

/-- A list of pushes moves sp down by its length and writes nothing but memory and sp. -/
theorem pushAll_fields (vs : List Byte) (s : State) :
    pushAll vs s = { s with mem := (pushAll vs s).mem, sp := s.sp - BitVec.ofNat 8 vs.length } := by
  induction vs generalizing s with
  | nil => simp [pushAll]
  | cons v vs ih =>
    have h : s.sp - 1#8 - BitVec.ofNat 8 vs.length = s.sp - BitVec.ofNat 8 (vs.length + 1) := by bv_omega
    rw [pushAll, ih]
    simp [h, push8, setSp, memWrite]

theorem pushAll_wf (vs : List Byte) (s : State) (hm : Memory.wf s.mem = true) :
    Memory.wf (pushAll vs s).mem = true := by
  induction vs generalizing s with
  | nil => exact hm
  | cons v vs ih => exact ih _ (Memory.wf_write _ _ _ hm)

/-- Pushing leaves every cell at or above sp, and every cell below the last one written, as it was. -/
theorem memRead_pushAll_other (vs : List Byte) (s : State) (a : Byte) (hs : vs.length ≤ s.sp.toNat)
    (ha : a.toNat < s.sp.toNat - vs.length ∨ s.sp.toNat ≤ a.toNat) : memRead (pushAll vs s) a = memRead s a := by
  induction vs generalizing s with
  | nil => rfl
  | cons v vs ih =>
    simp only [List.length_cons] at hs ha
    have hsp : (push8 v s).sp.toNat = s.sp.toNat - 1 := by
      simp only [push8_sp]
      bv_omega
    rw [pushAll, ih _ (by omega) (by omega)]
    refine memRead_memWrite_other (setSp (s.sp - 1) s) (s.sp - 1) a v fun e => ?_
    have hsp' : (s.sp - 1).toNat = s.sp.toNat - 1 := hsp
    rw [e] at ha
    omega

/-- The n-th byte pushed lies in the cell n + 1 below the old sp. -/
theorem memRead_pushAll_frame (vs : List Byte) (s : State) (n : Nat) (hn : n < vs.length)
    (hs : vs.length ≤ s.sp.toNat) (hm : Memory.wf s.mem = true) :
    memRead (pushAll vs s) (s.sp - BitVec.ofNat 8 (n + 1)) = vs[n] := by
  induction vs generalizing s n with
  | nil => cases hn
  | cons v vs ih =>
    simp only [List.length_cons] at hs hn
    have hsp : (push8 v s).sp.toNat = s.sp.toNat - 1 := by
      simp only [push8_sp]
      bv_omega
    cases n with
    | zero =>
      rw [pushAll, memRead_pushAll_other]
      · exact memRead_memWrite_same _ _ _ hm
      · omega
      · right
        rw [hsp]
        bv_omega
    | succ n =>
      have h := ih (push8 v s) n (by omega) (by omega) (Memory.wf_write _ _ _ hm)
      have ha : (push8 v s).sp - BitVec.ofNat 8 (n + 1) = s.sp - BitVec.ofNat 8 (n + 1 + 1) := by
        simp only [push8_sp]
        bv_omega
      rw [ha] at h
      rw [pushAll, h, List.getElem_cons_succ]

/-- The nine pops in one update: x[6] from the cell at sp, up to pc from the cell at sp + 8. -/
theorem restoreFrame_eq (s : State) : restoreFrame s = { s with
    x := #v[memRead s (s.sp + 6), memRead s (s.sp + 5), memRead s (s.sp + 4), memRead s (s.sp + 3),
            memRead s (s.sp + 2), memRead s (s.sp + 1), memRead s s.sp, readReg s 7]
    fl := memRead s (s.sp + 7), pc := memRead s (s.sp + 8), sp := s.sp + 9 } := by
  apply State.ext
  case x =>
    simp only [restoreFrame, popPc_x, popFl_x, popReg_x, popReg_sp, memRead_popReg, BitVec.add_assoc]
    apply Vector.ext
    intro i hi
    simp only [Vector.getElem_set]
    interval_cases i <;> simp [readReg]
  all_goals simp [restoreFrame, BitVec.add_assoc]

end Sys2Proof.Machine
end

