-- ==== Sys2Proof/Laws/Step.lean ====
section
/-! SUPPORT. What a step and its phases can do (40_engine_cycle.md R110), case by case. -/

namespace Sys2Proof.Machine

/-! ### The phases -/

theorem interruptCheck_taken (s : State) (h : interruptTaken s = true) : interruptCheck s = interruptEntry s := by
  simp [interruptCheck, h]

theorem interruptCheck_not_taken (s : State) (h : interruptTaken s = false) : interruptCheck s = s := by
  simp [interruptCheck, h]

/-- Entry without room for the frame is a StackFault (R228). -/
theorem interruptEntryWith_fault (c : Bool) (s : State) (h : s.sp.toNat < 9) :
    interruptEntryWith c s = raise .stackFault 0 s := by
  simp [interruptEntryWith, Config.intFrameSize, h]

/-- Entry with room for the frame: save, clear, vector (R226). -/
theorem interruptEntryWith_saves (c : Bool) (s : State) (h : 9 ≤ s.sp.toNat) :
    interruptEntryWith c s =
      vectorPc (clearStatus (pushAll (frameBytes (if c then clearStatus s else s)) (if c then clearStatus s else s))) := by
  simp [interruptEntryWith, Config.intFrameSize, show ¬ s.sp.toNat < 9 by omega]

/-- A memory that is canonical stays so through phase 1. -/
theorem interruptCheck_wf (s : State) (hm : Memory.wf s.mem = true) : Memory.wf (interruptCheck s).mem = true := by
  unfold interruptCheck
  split
  · by_cases h : s.sp.toNat < 9
    · rw [interruptEntry, interruptEntryWith_fault _ _ h]
      exact hm
    · rw [interruptEntry, interruptEntryWith_saves _ _ (by omega)]
      exact pushAll_wf _ _ hm
  · exact hm

/-- A cycle whose phase 1 faults ends there. -/
theorem engineCycle_entry_fault (tick : Bool) (s : State) (h : (interruptCheck s).run = .halted) :
    engineCycle tick s = .next (interruptCheck s) := by
  simp [engineCycle, h]

/-- A cycle whose phase 1 leaves the engine RUNNING goes on with phases 2 to 5. -/
theorem engineCycle_goes_on (tick : Bool) (s : State) (h : (interruptCheck s).run = .running) :
    engineCycle tick s = fetchAndDispatch (latchTick tick (interruptCheck s)) := by
  simp [engineCycle, h]

/-- The two outcomes of phase 5: the handler of the decoded instruction, or UnrecognizedOpcode. -/
theorem fetchAndDispatch_cases (s : State) :
    (∃ i, decodeFetched (memRead s s.pc) (memRead s (s.pc + 1)) (memRead s (s.pc + 2)) = some i ∧
      fetchAndDispatch s = exec i s) ∨
    (decodeFetched (memRead s s.pc) (memRead s (s.pc + 1)) (memRead s (s.pc + 2)) = none ∧
      fetchAndDispatch s = .next (raise .unrecognizedOpcode (memRead s s.pc) s)) := by
  unfold fetchAndDispatch dispatch
  split
  · rename_i i h
    exact .inl ⟨i, h, rfl⟩
  · rename_i h
    exact .inr ⟨h, rfl⟩

/-! ### The step -/

theorem step_running (s : State) (h : s.run = .running) :
    step s = engineCycle (Config.timer (s.cycle + 1)) (beginCycle s) := by
  simp [step, h]

theorem step_halted (s : State) (h : s.run = .halted) : step s = .fault .halted := by
  simp [step, h]

/-- A step that answers a next state is a cycle of a RUNNING engine. -/
theorem step_next (s t : State) (h : step s = .next t) :
    s.run = .running ∧ engineCycle (Config.timer (s.cycle + 1)) (beginCycle s) = .next t := by
  cases hr : s.run with
  | running => exact ⟨rfl, step_running s hr ▸ h⟩
  | halted => rw [step_halted s hr] at h; cases h

end Sys2Proof.Machine
end

