-- ==== Sys2Proof/Laws/Exec.lean ====
section
/-! SUPPORT. What an instruction can do: the one elimination lemma over exec, from which frames and invariants follow. -/

namespace Sys2Proof.Machine

/-- Everything an instruction can do, once: if exec answers next t, then t is one of these, so what holds of each of
them holds of t. `bad`, `stk`, `dvz` are the fatal stops, `wr` every write of a register by LDI, NOT and the
arithmetic and logic instructions, `emt` PRN and PRA. -/
theorem exec_elim {P : State → Prop} (i : Instr) (s t : State) (h : exec i s = .next t)
  (hlt : i = .hlt → P (raise .hlt 0 s))
  (bad : ∀ k, k ∈ i.regOperands → 7 < k.toNat → .regIndexFault ∈ mayRaise i → P (raise .regIndexFault k s))
  (stk : .stackFault ∈ mayRaise i → P (raise .stackFault 0 s))
  (dvz : .divideByZero ∈ mayRaise i → P (raise .divideByZero 0 s))
  (ret : i = .ret → P (setPc (memRead s s.sp) s))
  (iret : i = .iret → s.sp.toNat ≤ 246 → P (restoreFrame s))
  (push : ∀ r, i = .push (regByte r) → s.sp ≠ 0 → P (advance .push (push8 (readReg s r) s)))
  (pop : ∀ r, i = .pop (regByte r) → s.sp ≠ 255 → P (advance .pop (popReg r s)))
  (emt : ∀ o e, (∃ a, i = .prn a) ∨ (∃ a, i = .pra a) → OPC o ∈ (encode i).head? → P (advance o (emit e s)))
  (call : ∀ r, i = .call (regByte r) → P (setPc (readReg s r) (memWrite s.sp (nextPc .call s) s)))
  (jmp : ∀ r, i = .jmp (regByte r) ∨ i = .jne (regByte r) → P (setPc (readReg s r) s))
  (jne : ∀ r, i = .jne (regByte r) → P (advance .jne s))
  (wr : ∀ o r v, writesReg i r = true → OPC o ∈ (encode i).head? → P (advance o (writeReg r v s)))
  (st : ∀ r q, i = .st (regByte r) (regByte q) → P (advance .st (memWrite (readReg s r) (readReg s q) s)))
  (cmp : ∀ v, (∃ a b, i = .cmp a b) → P (advance .cmp (setFl v s))) : P t := by
  cases i <;> cases h
  case hlt => exact hlt rfl
  case ret => exact ret rfl
  case iret =>
    unfold interruptReturn; split
    · exact stk (by simp [mayRaise])
    · exact iret rfl (by omega)
  case push a =>
    refine withReg_elim a s _ (fun r h => ?_)
      (fun h => bad a (by simp [Instr.regOperands]) h (by simp [mayRaise]))
    split
    · exact stk (by simp [mayRaise])
    · exact push r (by rw [h]) ‹_›
  case pop a =>
    refine withReg_elim a s _ (fun r h => ?_)
      (fun h => bad a (by simp [Instr.regOperands]) h (by simp [mayRaise]))
    split
    · exact stk (by simp [mayRaise])
    · exact pop r (by rw [h]) ‹_›
  case prn a =>
    exact withReg_elim a s _ (fun r h => emt _ _ (.inl ⟨a, rfl⟩) (by simp [encode]))
      (fun h => bad a (by simp [Instr.regOperands]) h (by simp [mayRaise]))
  case pra a =>
    exact withReg_elim a s _ (fun r h => emt _ _ (.inr ⟨a, rfl⟩) (by simp [encode]))
      (fun h => bad a (by simp [Instr.regOperands]) h (by simp [mayRaise]))
  case call a =>
    exact withReg_elim a s _ (fun r h => call r (by rw [h]))
      (fun h => bad a (by simp [Instr.regOperands]) h (by simp [mayRaise]))
  case jmp a =>
    exact withReg_elim a s _ (fun r h => jmp r (by rw [h]; exact .inl rfl))
      (fun h => bad a (by simp [Instr.regOperands]) h (by simp [mayRaise]))
  case jne a =>
    refine withReg_elim a s _ (fun r h => ?_)
      (fun h => bad a (by simp [Instr.regOperands]) h (by simp [mayRaise]))
    split
    · exact jne r (by rw [h])
    · exact jmp r (by rw [h]; exact .inr rfl)
  case ldi a b =>
    exact withReg_elim a s _ (fun r h => wr _ _ _ (by simp [writesReg, h, regIndex_regByte]) (by simp [encode]))
      (fun h => bad a (by simp [Instr.regOperands]) h (by simp [mayRaise]))
  case not a =>
    exact withReg_elim a s _ (fun r h => wr _ _ _ (by simp [writesReg, h, regIndex_regByte]) (by simp [encode]))
      (fun h => bad a (by simp [Instr.regOperands]) h (by simp [mayRaise]))
  case st a b =>
    exact withRegs_elim a b s _ (fun r q h h' => st r q (by rw [h, h']))
      (fun h => bad a (by simp [Instr.regOperands]) h (by simp [mayRaise]))
      (fun h => bad b (by simp [Instr.regOperands]) h (by simp [mayRaise]))
  case cmp a b =>
    exact withRegs_elim a b s _ (fun r q h h' => cmp _ ⟨a, b, rfl⟩)
      (fun h => bad a (by simp [Instr.regOperands]) h (by simp [mayRaise]))
      (fun h => bad b (by simp [Instr.regOperands]) h (by simp [mayRaise]))
  case div a b =>
    refine withRegs_elim a b s _ (fun r q h h' => ?_)
      (fun h => bad a (by simp [Instr.regOperands]) h (by simp [mayRaise]))
      (fun h => bad b (by simp [Instr.regOperands]) h (by simp [mayRaise]))
    split
    · exact dvz (by simp [mayRaise])
    · exact wr _ _ _ (by simp [writesReg, h, regIndex_regByte]) (by simp [encode])
  all_goals
    rename_i a b
    exact withRegs_elim a b s _ (fun r q h h' => wr _ _ _ (by simp [writesReg, h, regIndex_regByte]) (by simp [encode]))
      (fun h => bad a (by simp [Instr.regOperands]) h (by simp [mayRaise]))
      (fun h => bad b (by simp [Instr.regOperands]) h (by simp [mayRaise]))

end Sys2Proof.Machine
end

