-- ==== Sys2Proof/Laws/PerInstr.lean ====
section
/-! SUPPORT. Statements for every instruction, one lemma per constructor: the family RegistersComeFirst. -/

namespace Sys2Proof.Laws.RegistersComeFirst

/-- The register operands of an instruction are the first bytes after its opcode byte, in the order the handler
checks them (30_encoding.md R80, R86, 40_engine_cycle.md R122). -/
def Statement (i : Instr) : Prop := i.regOperands <+: (encode i).tail

theorem hlt : Statement .hlt := ⟨_, rfl⟩
theorem ret : Statement .ret := ⟨_, rfl⟩
theorem iret : Statement .iret := ⟨_, rfl⟩
theorem push (a : Byte) : Statement (.push a) := ⟨_, rfl⟩
theorem pop (a : Byte) : Statement (.pop a) := ⟨_, rfl⟩
theorem prn (a : Byte) : Statement (.prn a) := ⟨_, rfl⟩
theorem pra (a : Byte) : Statement (.pra a) := ⟨_, rfl⟩
theorem call (a : Byte) : Statement (.call a) := ⟨_, rfl⟩
theorem jmp (a : Byte) : Statement (.jmp a) := ⟨_, rfl⟩
theorem ldi (a b : Byte) : Statement (.ldi a b) := ⟨_, rfl⟩
theorem st (a b : Byte) : Statement (.st a b) := ⟨_, rfl⟩
theorem add (a b : Byte) : Statement (.add a b) := ⟨_, rfl⟩
theorem mul (a b : Byte) : Statement (.mul a b) := ⟨_, rfl⟩
theorem cmp (a b : Byte) : Statement (.cmp a b) := ⟨_, rfl⟩
theorem jne (a : Byte) : Statement (.jne a) := ⟨_, rfl⟩
theorem not (a : Byte) : Statement (.not a) := ⟨_, rfl⟩
theorem sub (a b : Byte) : Statement (.sub a b) := ⟨_, rfl⟩
theorem div (a b : Byte) : Statement (.div a b) := ⟨_, rfl⟩
theorem and (a b : Byte) : Statement (.and a b) := ⟨_, rfl⟩
theorem or (a b : Byte) : Statement (.or a b) := ⟨_, rfl⟩
theorem xor (a b : Byte) : Statement (.xor a b) := ⟨_, rfl⟩

end Sys2Proof.Laws.RegistersComeFirst
end

