-- ==== Sys2Proof/Tests/Slice0.lean ====
section
/-! SUPPORT. The model's own tests: expected values are those of spec/95_test_vectors.md or of the rule cited, and a
witness for the hypotheses of every statement that has some. -/

namespace Sys2Proof.Tests

open Sys2Proof.Machine

/-- The next state of an outcome. -/
def after (o : Host.Outcome State Fault Refusal) : Option State :=
  match o with
  | .next t => some t
  | .fault _ => none
  | .refused _ => none

/-- Reset with x[0] = p, x[1] = q. -/
def two (p q : Byte) : State := writeReg 0 p (writeReg 1 q State.reset)

/-- Reset with the interrupt permitted and pending, and `sp` set. -/
def pending (sp : Byte) : State := setSp sp (writeReg 5 1 (writeReg 6 1 State.reset))

/-! ### Well-formedness: an ill-formed term for each check -/

theorem test_register_operand_a_above_seven_is_ill_formed :
    ([.push 8, .pop 8, .prn 8, .pra 8, .call 8, .jmp 8, .ldi 8 0, .st 8 0, .add 8 0, .mul 8 0, .cmp 8 0, .jne 8, .not 8,
      .sub 8 0, .div 8 0, .and 8 0, .or 8 0, .xor 8 0] : List Instr).all (fun i => !i.wellFormed) = true := by decide

theorem test_register_operand_b_above_seven_is_ill_formed :
    ([.st 0 8, .add 0 8, .mul 0 8, .cmp 0 8, .sub 0 8, .div 0 8, .and 0 8, .or 0 8, .xor 0 8] : List Instr).all
      (fun i => !i.wellFormed) = true := by decide

theorem test_immediate_is_never_ill_formed : (Instr.ldi 7 0xFF).wellFormed = true := by decide

theorem test_image_of_257_bytes_is_ill_formed : imageWellFormed (List.replicate 257 0) = false := by
  rw [imageWellFormed, List.length_replicate]
  rfl

theorem test_image_of_256_bytes_is_well_formed : imageWellFormed (List.replicate 256 0) = true := by
  rw [imageWellFormed, List.length_replicate]
  rfl

/-! ### Decoding: words written out from the binary column of R86 -/

theorem test_decode_hlt : decode [0b00000001] = .ok (.hlt, []) := by rfl
theorem test_decode_ret : decode [0b00010001] = .ok (.ret, []) := by rfl
theorem test_decode_iret : decode [0b00010011] = .ok (.iret, []) := by rfl
theorem test_decode_push : decode [0b01000101, 3] = .ok (.push 3, []) := by rfl
theorem test_decode_pop : decode [0b01000110, 3] = .ok (.pop 3, []) := by rfl
theorem test_decode_prn : decode [0b01000111, 3] = .ok (.prn 3, []) := by rfl
theorem test_decode_pra : decode [0b01001000, 3] = .ok (.pra 3, []) := by rfl
theorem test_decode_call : decode [0b01010000, 3] = .ok (.call 3, []) := by rfl
theorem test_decode_jmp : decode [0b01010100, 3] = .ok (.jmp 3, []) := by rfl
theorem test_decode_ldi : decode [0b10000010, 3, 200] = .ok (.ldi 3 200, []) := by rfl
theorem test_decode_st : decode [0b10000100, 3, 4] = .ok (.st 3 4, []) := by rfl
theorem test_decode_add : decode [0b10100000, 3, 4] = .ok (.add 3 4, []) := by rfl
theorem test_decode_mul : decode [0b10100010, 3, 4] = .ok (.mul 3 4, []) := by rfl
theorem test_decode_cmp : decode [0b10100111, 3, 4] = .ok (.cmp 3 4, []) := by rfl
theorem test_decode_jne : decode [0b01010110, 3] = .ok (.jne 3, []) := by rfl
theorem test_decode_not : decode [0b01101001, 3] = .ok (.not 3, []) := by rfl
theorem test_decode_sub : decode [0b10100001, 3, 4] = .ok (.sub 3 4, []) := by rfl
theorem test_decode_div : decode [0b10100011, 3, 4] = .ok (.div 3 4, []) := by rfl
theorem test_decode_and : decode [0b10101000, 3, 4] = .ok (.and 3 4, []) := by rfl
theorem test_decode_or : decode [0b10101010, 3, 4] = .ok (.or 3 4, []) := by rfl
theorem test_decode_xor : decode [0b10101011, 3, 4] = .ok (.xor 3 4, []) := by rfl

/-- The dispatch vectors: the key is the whole byte (`02`, `C1`), and the wider family is unrecognized (`83`). -/
theorem test_decode_unrecognized :
    [0xFF, 0x00, 0x83, 0x02, 0xC1].all (fun ir => (decodeFetched ir 0 1).isNone) = true := by decide

theorem test_decode_ext_absent : decodeFetchedWith false 0xA1 0 1 = none := by rfl

theorem test_decode_truncated : decode [0x82, 0x00] = .error .truncated := by rfl

theorem test_table_word_bytes : decodeTableWord 24 0x080082 = some (.ldi 0 8) := by rfl

/-! ### Instructions: one step each, from the vectors of 95_test_vectors.md -/

theorem test_ldi : (after (exec (.ldi 3 0xFF) State.reset)).map (fun t => (readReg t 3, t.pc)) = some (0xFF, 3) := by decide

theorem test_ldi_wraps_at_the_top_of_memory :
    (after (engineCycle false (setPc 0xFE (memWrite 0xFE 0x82 (memWrite 0xFF 0x02 (memWrite 0x00 0x82 State.reset)))))).map
      (fun t => (readReg t 2, t.pc)) = some (0x82, 0x01) := by decide

theorem test_st : (after (exec (.st 0 1) (setPc 6 (two 0xF8 0x12)))).map (fun t => (memRead t 0xF8, t.pc)) =
    some (0x12, 9) := by decide

theorem test_st_checks_operand_a_first :
    (after (exec (.st 9 10) State.reset)).map status = some (.halted, .regIndexFault, 9) := by decide

theorem test_add : (after (exec (.add 0 1) (two 200 100))).map (fun t => (readReg t 0, readReg t 1)) = some (44, 100) := by
  decide

theorem test_add_doubles : (after (exec (.add 0 0) (two 200 0))).map (fun t => readReg t 0) = some 144 := by decide

theorem test_mul : (after (exec (.mul 0 1) (two 200 100))).map (fun t => readReg t 0) = some 32 := by decide

theorem test_cmp_is_unsigned : (after (exec (.cmp 0 1) (two 128 127))).map (fun t => t.fl) = some 0x02 := by decide

theorem test_cmp_less : (after (exec (.cmp 0 1) (two 0 255))).map (fun t => (t.fl, readReg t 0)) = some (0x04, 0) := by
  decide

theorem test_sub_wraps : (after (exec (.sub 0 1) (two 5 10))).map (fun t => readReg t 0) = some 251 := by decide

theorem test_div : (after (exec (.div 0 1) (two 200 7))).map (fun t => readReg t 0) = some 28 := by decide

theorem test_div_by_zero :
    (after (exec (.div 0 1) (two 7 0))).map (fun t => (status t, readReg t 0, t.pc)) =
      some ((.halted, .divideByZero, 0), 7, 0) := by decide

theorem test_and : (after (exec (.and 0 1) (two 0xCC 0xAA))).map (fun t => readReg t 0) = some 0x88 := by decide

theorem test_or : (after (exec (.or 0 1) (two 0xCC 0xAA))).map (fun t => readReg t 0) = some 0xEE := by decide

theorem test_xor : (after (exec (.xor 0 1) (two 0xCC 0xAA))).map (fun t => readReg t 0) = some 0x66 := by decide

theorem test_not : (after (exec (.not 0) (two 0x0F 0))).map (fun t => (readReg t 0, t.pc)) = some (0xF0, 2) := by decide

theorem test_push : (after (exec (.push 0) (setPc 3 (two 0x55 0)))).map (fun t => (t.sp, memRead t 0xF3, t.pc)) =
    some (0xF3, 0x55, 5) := by decide

theorem test_push_at_zero : (after (exec (.push 0) (setSp 0 (two 9 0)))).map (fun t => (status t, t.sp)) =
    some ((.halted, .stackFault, 0), 0) := by decide

theorem test_pop_to_the_top : (after (exec (.pop 0) (setSp 254 (memWrite 254 7 State.reset)))).map
    (fun t => (readReg t 0, t.sp)) = some (7, 255) := by decide

theorem test_pop_at_255 : (after (exec (.pop 0) (setSp 255 State.reset))).map (fun t => (status t, t.sp)) =
    some ((.halted, .stackFault, 0), 255) := by decide

theorem test_call_wraps_the_return_address :
    (after (exec (.call 0) (setPc 0xFE (two 0x40 0)))).map (fun t => (memRead t 0xF4, t.pc, t.sp)) =
      some (0x00, 0x40, 0xF4) := by decide

theorem test_call_destroys_the_top :
    (after (exec (.call 1) (setPc 8 (setSp 0xF3 (memWrite 0xF3 0x55 (two 0 0x0D)))))).map
      (fun t => (memRead t 0xF3, t.pc)) = some (0x0A, 0x0D) := by decide

theorem test_ret : (after (exec .ret (setPc 0x0B (memWrite 0xF4 8 State.reset)))).map (fun t => (t.pc, t.sp)) =
    some (8, 0xF4) := by decide

theorem test_symmetric_call : (fun t => (t.sp, memRead t 0xF3, t.pc)) (callWith .symmetric 0 (setPc 6 (two 9 0))) =
    (0xF3, 8, 9) := by decide

theorem test_symmetric_ret :
    (fun t => (t.pc, t.sp)) (retWith .symmetric (setSp 0xF3 (memWrite 0xF3 8 State.reset))) = (8, 0xF4) := by decide

theorem test_jmp : (after (exec (.jmp 7) State.reset)).map (fun t => t.pc) = some 0xF4 := by decide

theorem test_jne_reads_bit_zero_only :
    (after (exec (.jne 0) (setFl 0x05 (setPc 0x12 (two 0x0C 0))))).map (fun t => t.pc) = some 0x14 := by decide

theorem test_jne_branches : (after (exec (.jne 0) (setFl 0x04 (setPc 0x12 (two 0x0C 0))))).map (fun t => t.pc) =
    some 0x0C := by decide

theorem test_prn : (after (exec (.prn 0) (two 100 0))).map (fun t => render t.out) = some [0x31, 0x30, 0x30, 0x0A] := by
  decide

theorem test_pra : (after (exec (.pra 0) (two 0xE9 0))).map (fun t => render t.out) = some [0xE9] := by decide

theorem test_hlt : (after (exec .hlt (setPc 5 State.reset))).map (fun t => (status t, t.pc)) =
    some ((.halted, .hlt, 0), 5) := by decide

/-- The second IRET vector: `07 06 05 04 03 02 01 FF 30` at 0xEB. -/
theorem test_iret :
    (after (exec .iret (setSp 0xEB { State.reset with
      mem := storeBytes [7, 6, 5, 4, 3, 2, 1, 0xFF, 0x30] 0xEB [] }))).map (fun t => (t.x, t.fl, t.pc, t.sp)) =
      some (#v[1, 2, 3, 4, 5, 6, 7, 0xF4], 0xFF, 0x30, 0xF4) := by decide

theorem test_iret_at_247 : (after (exec .iret (setSp 247 State.reset))).map status =
    some (.halted, .stackFault, 0) := by decide

/-! ### The cycle, the interrupt, the timer -/

/-- The start state of the entry vector. -/
def entryStart : State := { State.reset with
  x := #v[10, 11, 12, 13, 14, 0x03, 0x05, 0xF4], pc := 0x0C, fl := 0x02, mem := [(0xF8, 0x40)] }

theorem test_entry : (fun t => ((List.range 9).map (fun k => Memory.read t.mem (0xEB + k)), t.sp, t.x, t.pc))
    (interruptCheck entryStart) =
    ([0x05, 0x03, 14, 13, 12, 11, 10, 0x02, 0x0C], 0xEB, #v[10, 11, 12, 13, 14, 0x03, 0x04, 0xF4], 0x40) := by decide

theorem test_entry_clear_before_save : memRead (interruptEntryWith true entryStart) 0xEB = 0x04 := by decide

theorem test_tick_after_entry : readReg (latchTick true (interruptCheck entryStart)) 6 = 0x05 := by decide

/-- Mask and status have no common bit 0: no entry. -/
theorem test_entry_needs_bit_zero_of_both :
    (interruptTaken (writeReg 5 0xFE (writeReg 6 0xFF State.reset)) ||
      interruptTaken (writeReg 5 0xFF (writeReg 6 0xFE State.reset))) = false := by decide

theorem test_entry_at_sp_8 : (after (engineCycle true (pending 8))).map (fun t => (status t, t.mem, readReg t 6)) =
    some ((.halted, .stackFault, 0), [], 1) := by decide

/-- The HLT at the old pc is not executed: its address is saved, and the byte at 0x40 (0, unrecognized) is. -/
theorem test_entry_beats_hlt :
    (after (engineCycle false (memWrite 0xF8 0x40 (memWrite 0 0x01 (pending 0xF4))))).map
      (fun t => (status t, t.pc, t.sp)) = some ((.halted, .unrecognizedOpcode, 0), 0x40, 0xEB) := by decide

theorem test_tick_is_latched_before_the_handler :
    (after (engineCycle true (memWrite 0 0x82 (memWrite 1 0x05 (memWrite 2 0x01 State.reset))))).map
      (fun t => (readReg t 5, readReg t 6, t.pc)) = some (1, 1, 3) := by decide

theorem test_empty_image_halts :
    (after (engineCycle false State.reset)).map (fun t => (status t, t.pc)) =
      some ((.halted, .unrecognizedOpcode, 0x00), 0) := by decide

/-- A store to the byte after it is what the next fetch reads (R62). -/
theorem test_store_is_fetched_next :
    (after (exec (.st 0 1) (two 0x03 0x01))).bind (fun t => (after (fetchAndDispatch t)).map (fun u => (status u, u.pc))) =
      some ((.halted, .hlt, 0), 3) := by decide

theorem test_launch_places_the_image :
    (after (launch [0x82, 0x00, 0x08, 0x47, 0x00, 0x01])).map (fun t => t.mem) =
      some [(0, 0x82), (2, 0x08), (3, 0x47), (5, 0x01)] := by decide

theorem test_withFetchWord_runs_the_word :
    (after (step (State.reset.withFetchWord 24 0x080082))).map (fun t => (readReg t 0, t.pc)) = some (8, 3) := by rfl

/-! ### Witnesses: the hypotheses of each statement can be met -/

/-- For the register checks in every statement named after an instruction, and in SymmetricDisciplinePushesAndPops. -/
theorem witness_register_bytes : 7 < (8 : Byte).toNat ∧ 7 < (255 : Byte).toNat ∧ (7 : Byte).toNat ≤ 7 := by decide

theorem witness_EncodeUndoesDecode : decode [0x50, 0x08, 0x99] = .ok (.call 8, [0x99]) := by rfl

theorem witness_StepRunsTheDecodedInstruction_no_interrupt :
    let s := memWrite 0 0x11 State.reset
    s.run = .running ∧ interruptTaken s = false ∧
      decodeFetched (memRead s s.pc) (memRead s (s.pc + 1)) (memRead s (s.pc + 2)) = some .ret := by decide

theorem witness_StepRunsTheDecodedInstruction_entry :
    let s := memWrite 0x40 0x11 entryStart
    let s1 := interruptCheck (beginCycle s)
    let s2 := latchTick (Config.timer (s.cycle + 1)) s1
    s.run = .running ∧ s1.run = .running ∧
      decodeFetched (memRead s2 s2.pc) (memRead s2 (s2.pc + 1)) (memRead s2 (s2.pc + 2)) = some .ret :=
  ⟨rfl, rfl, rfl⟩

theorem witness_StepRunsTheDecodedInstruction_unrecognized :
    let s1 := interruptCheck (beginCycle State.reset)
    let s2 := latchTick (Config.timer (State.reset.cycle + 1)) s1
    State.reset.run = .running ∧ s1.run = .running ∧
      decodeFetched (memRead s2 s2.pc) (memRead s2 (s2.pc + 1)) (memRead s2 (s2.pc + 2)) = none := ⟨rfl, rfl, rfl⟩

theorem witness_StepRunsTheDecodedInstruction_entry_fault :
    (pending 8).run = .running ∧ (interruptCheck (beginCycle (pending 8))).run = .halted := by decide

theorem witness_HaltedEngineHasNoStep : (raise .hlt 0 State.reset).run = .halted := rfl

theorem witness_LoadPlacesTheImage :
    (List.replicate 256 (1 : Byte)).length ≤ 256 ∧ 256 < (List.replicate 257 (1 : Byte)).length := by
  rw [List.length_replicate, List.length_replicate]
  decide

theorem witness_DivIsUnsignedQuotientOrFault : readReg (two 7 1) 1 ≠ 0 ∧ readReg (two 7 0) 1 = 0 := by decide

theorem witness_PushStoresBelowSp : (setSp 1 State.reset).sp ≠ 0 ∧ (setSp 0 State.reset).sp = 0 := by decide

theorem witness_PopReadsAtSp : (setSp 254 State.reset).sp ≠ 255 ∧ (setSp 255 State.reset).sp = 255 := by decide

theorem witness_IretPopsTheNineByteFrame :
    (setSp 246 State.reset).sp.toNat ≤ 246 ∧ 246 < (setSp 247 State.reset).sp.toNat := by decide

theorem witness_HltHaltsTheEngine : exec .hlt State.reset = .next (raise .hlt 0 State.reset) := rfl

theorem witness_BadRegisterOperandIsReportedFirst :
    firstBadReg (.add 9 10) = some 9 ∧ firstBadReg (.st 7 8) = some 8 := by decide

theorem witness_UnrecognizedOpcodeStopsWithTheByte :
    (0x83 : Byte) ∉ baseBytes ∧ (0x83 : Byte) ∉ extBytes := by decide

theorem witness_HaltingInstructionsArePrecise :
    State.reset.run = .running ∧ exec .hlt State.reset = .next (raise .hlt 0 State.reset) ∧
      (after (exec .ret State.reset)).map (fun t => t.run) = some .running := ⟨rfl, rfl, by decide⟩

/-- Also for ClearBeforeSaveChangesOnlyTheSavedStatus, TheHandlerRunsInTheEntryCycle, ReturnUndoesEntry and
ReturnRaisesTheInterruptAgain. -/
theorem witness_InterruptEntrySavesNineBytesAndVectors :
    (pending 9).run = .running ∧ Memory.wf (pending 9).mem = true ∧ interruptTaken (pending 9) = true ∧
      9 ≤ (pending 9).sp.toNat ∧ (pending 8).sp.toNat < 9 := by decide

theorem witness_EntryWithoutRoomIsAStackFault :
    interruptTaken (pending 8) = true ∧ (pending 8).sp.toNat < 9 := by decide

theorem witness_TickSetsTheStatusBitOnly : (readReg (pending 9) 6).toNat % 2 = 1 := by decide

theorem witness_PushThenPopRoundTrips : Memory.wf State.reset.mem = true ∧ (setSp 1 State.reset).sp ≠ 0 := by decide

theorem witness_RetResumesAfterTheCall :
    let t := callWith .reference 0 (two 9 0)
    Memory.wf (two 9 0).mem = true ∧ exec (.call (regByte 0)) (two 9 0) = .next t ∧ t.sp = t.sp ∧
      memRead t t.sp = memRead t t.sp := ⟨rfl, rfl, rfl, rfl⟩

theorem witness_SymmetricDisciplinePushesAndPops :
    (setSp 1 State.reset).sp ≠ 0 ∧ (setSp 0 State.reset).sp = 0 ∧ 7 < (8 : Byte).toNat ∧
      (setSp 254 State.reset).sp ≠ 255 ∧ (setSp 255 State.reset).sp = 255 := by decide

theorem witness_OnlyStackInstructionsMoveSp :
    (after (exec (.push 0) State.reset)).map (fun t => decide (t.sp ≠ State.reset.sp)) = some true ∧
    (after (exec (.pop 0) State.reset)).map (fun t => decide (t.sp ≠ State.reset.sp)) = some true ∧
    (after (exec .iret State.reset)).map (fun t => decide (t.sp ≠ State.reset.sp)) = some true := by decide

theorem witness_OnlyCmpAndIretWriteFlags :
    (after (exec (.cmp 0 1) State.reset)).map (fun t => decide (t.fl ≠ State.reset.fl)) = some true ∧
    (after (exec .iret (setFl 1 State.reset))).map (fun t => decide (t.fl ≠ 1)) = some true := by decide

theorem witness_RegistersOutsideTheWriteSetAreUnchanged :
    (∃ t, exec (.add 0 1) State.reset = .next t) ∧ writesReg (.add 0 1) 1 = false ∧ writesReg .iret 7 = false ∧
      writesReg (.st 0 1) 0 = false := ⟨⟨_, rfl⟩, by decide⟩

theorem witness_BytesOutsideTheStoreAreUnchanged :
    (∃ t, exec (.push 0) State.reset = .next t) ∧ storeAddress (.push 0) State.reset ≠ some 0xF4 ∧
      storeAddress (.call 0) State.reset ≠ some 0xF3 ∧ storeAddress (.st 0 1) (two 5 6) ≠ some 6 ∧
      storeAddress .ret State.reset ≠ some 0xF4 := ⟨⟨_, rfl⟩, by decide⟩

theorem witness_OutGrowsByPrnAndPraOnly : ∃ t, exec (.prn 0) State.reset = .next t := ⟨_, rfl⟩

theorem witness_SequentialInstructionsAdvanceByTheirWidth :
    State.reset.run = .running ∧ (after (exec (.ldi 0 8) State.reset)).map (fun t => t.run) = some .running ∧
      (after (exec .hlt State.reset)).map (fun t => t.run) = some .halted := by decide

theorem witness_OutputIsNeverRead : ∃ t, engineCycle true State.reset = .next t := ⟨_, rfl⟩

theorem witness_StepExtendsTheOutput : ∃ t, step State.reset = .next t := ⟨_, rfl⟩

theorem witness_CanonicalMemoriesThatReadAlikeAreEqual :
    Memory.wf [(0, 0x82), (255, 1)] = true ∧ Memory.wf [(1, 1), (0, 1)] = false ∧ Memory.wf [(0, 0)] = false := by decide

theorem witness_ResetAndLaunchMeetTheInvariant : ∃ t, launch [0x01] = .next t := ⟨_, rfl⟩

theorem witness_EveryStepKeepsTheInvariant : Inv State.reset ∧ ∃ t, step State.reset = .next t :=
  ⟨by decide, _, rfl⟩

end Sys2Proof.Tests
end

section
/-! PROOF. What a cycle can do, case by case, and the invariant it keeps (40_engine_cycle.md R110, 60_exceptions.md
R215, 20_memory.md R50). -/

namespace Sys2Proof.Machine

/-! ### The nine pops of IRET, field by field -/

@[simp] theorem restoreFrame_mem (s : State) : (restoreFrame s).mem = s.mem := by rw [restoreFrame_eq]
@[simp] theorem restoreFrame_out (s : State) : (restoreFrame s).out = s.out := by rw [restoreFrame_eq]
@[simp] theorem restoreFrame_cycle (s : State) : (restoreFrame s).cycle = s.cycle := by rw [restoreFrame_eq]
@[simp] theorem status_restoreFrame (s : State) : status (restoreFrame s) = status s := by rw [restoreFrame_eq]; rfl
@[simp] theorem readReg_restoreFrame_seven (s : State) : readReg (restoreFrame s) 7 = readReg s 7 := by
  rw [restoreFrame_eq]
  rfl

/-! ### Phases 1 and 2 -/

/-- Pushing bytes writes no register. -/
@[simp] theorem readReg_pushAll (vs : List Byte) (s : State) (r : Fin 8) : readReg (pushAll vs s) r = readReg s r := by
  rw [pushAll_fields]
  rfl

/-- Everything phase 1 can do, once: nothing, a StackFault, or the entry with room for its frame; what holds of the
three outcomes holds of `interruptCheck s` (R225, R226, R228). -/
theorem interruptCheck_elim {P : State → Prop} (s : State) (stay : interruptTaken s = false → P s)
    (fault : interruptTaken s = true → s.sp.toNat < 9 → P (raise .stackFault 0 s))
    (enter : interruptTaken s = true → 9 ≤ s.sp.toNat → P (vectorPc (clearStatus (pushAll (frameBytes s) s)))) :
    P (interruptCheck s) := by
  cases ht : interruptTaken s with
  | false => exact (interruptCheck_not_taken s ht).symm ▸ stay ht
  | true =>
    rw [interruptCheck_taken s ht, interruptEntry]
    rcases Nat.lt_or_ge s.sp.toNat 9 with hs | hs
    · exact interruptEntryWith_fault _ s hs ▸ fault ht hs
    · exact interruptEntryWith_saves _ s hs ▸ enter ht hs

/-- The check, taken or not, leaves out and the model's cycle number alone. -/
theorem interruptCheck_out_cycle (s : State) :
    (interruptCheck s).out = s.out ∧ (interruptCheck s).cycle = s.cycle := by
  refine interruptCheck_elim (P := fun t => t.out = s.out ∧ t.cycle = s.cycle) s
    (fun _ => ⟨rfl, rfl⟩) (fun _ _ => ⟨rfl, rfl⟩) fun _ _ => ?_
  rw [pushAll_fields]
  exact ⟨rfl, rfl⟩

/-! ### The whole cycle -/

/-- The three ways a cycle ends: in phase 1, in the handler of the decoded instruction, or with UnrecognizedOpcode; what
holds of each holds of the state it answers (R110, R112, R116). -/
theorem engineCycle_elim {P : State → Prop} (tick : Bool) (s t : State) (h : engineCycle tick s = .next t)
    (entryFault : (interruptCheck s).run = .halted → P (interruptCheck s))
    (handler : ∀ i, exec i (latchTick tick (interruptCheck s)) = .next t → P t)
    (unrecognized : ∀ ir a b, decodeFetched ir a b = none →
      P (raise .unrecognizedOpcode ir (latchTick tick (interruptCheck s)))) : P t := by
  cases hr : (interruptCheck s).run with
  | halted =>
    rw [engineCycle_entry_fault tick s hr] at h
    cases h
    exact entryFault hr
  | running =>
    rw [engineCycle_goes_on tick s hr] at h
    rcases fetchAndDispatch_cases (latchTick tick (interruptCheck s)) with ⟨i, -, he⟩ | ⟨hd, he⟩
    · exact handler i (he ▸ h)
    · rw [he] at h
      cases h
      exact unrecognized _ _ _ hd

/-! ### The invariant -/

/-- A stop whose info fits its cause meets the invariant over a canonical memory. -/
theorem raise_inv (cause : HaltCause) (info : Byte) (s : State) (hm : Memory.wf s.mem = true) (hc : cause ≠ .none)
    (hi : infoFits cause info = true) : Inv (raise cause info s) :=
  ⟨hm, by simp [statusFits, hc, hi]⟩

/-- A byte whose fetch does not decode fits as the info of UnrecognizedOpcode. -/
theorem infoFits_of_not_decoded (ir a b : Byte) (h : decodeFetched ir a b = none) :
    infoFits .unrecognizedOpcode ir = true := by
  simpa [infoFits, decodeFetched, decodeFetchedWith] using h

/-- Phase 1 keeps the invariant: the entry leaves the status outputs alone, the fault sets them to fit. -/
theorem interruptCheck_inv (s : State) (hs : Inv s) : Inv (interruptCheck s) := by
  refine interruptCheck_elim s (fun _ => hs) (fun _ _ => raise_inv _ _ s hs.1 (by simp) rfl)
    fun _ _ => ⟨pushAll_wf _ s hs.1, ?_⟩
  rw [pushAll_fields]
  exact hs.2

/-- The invariant reads nothing but memory and the status outputs. -/
theorem inv_of_status_eq (s t : State) (hs : Inv s) (hst : status t = status s) (hm : Memory.wf t.mem = true) :
    Inv t := by
  simp only [status, Prod.mk.injEq] at hst
  obtain ⟨hr, hc, hi⟩ := hst
  exact ⟨hm, by rw [statusFits, hr, hc, hi]; exact hs.2⟩

/-- Every instruction keeps the invariant: a stop sets status outputs that fit, every other outcome leaves them, and
only PUSH, CALL and ST write memory. -/
theorem exec_inv (i : Instr) (s t : State) (h : exec i s = .next t) (hs : Inv s) : Inv t := by
  have stop : ∀ c k, c ≠ .none → infoFits c k = true → Inv (raise c k s) := fun c k => raise_inv c k s hs.1
  have same : ∀ u : State, status u = status s → u.mem = s.mem → Inv u := fun u hst hm =>
    inv_of_status_eq s u hs hst (hm ▸ hs.1)
  have stores : ∀ (u : State) (a v : Byte), status u = status s → u.mem = Memory.write s.mem a.toNat v → Inv u :=
    fun u a v hst hm => inv_of_status_eq s u hs hst (hm ▸ Memory.wf_write _ a v hs.1)
  apply exec_elim (P := Inv) i s t h
  case hlt => exact fun _ => stop _ _ (by simp) rfl
  case bad => exact fun _ _ hk _ => stop _ _ (by simp) (decide_eq_true hk)
  case stk | dvz => exact fun _ => stop _ _ (by simp) rfl
  case iret => exact fun _ _ => same _ (status_restoreFrame s) (restoreFrame_mem s)
  case push | st => exact fun _ _ _ => stores _ _ _ rfl rfl
  case call => exact fun _ _ => stores _ _ _ rfl rfl
  all_goals intros; exact same _ rfl rfl

/-- Settles O59: phases 1 and 2 keep the invariant, and so does each of the cycle's ends. -/
theorem everyStepKeepsTheInvariant : Obligations.EveryStepKeepsTheInvariant := by
  unfold Obligations.EveryStepKeepsTheInvariant
  intro s t hs h
  obtain ⟨-, hc⟩ := step_next s t h
  have h1 : Inv (interruptCheck (beginCycle s)) := interruptCheck_inv _ hs
  exact engineCycle_elim _ _ t hc (fun _ => h1) (fun i hi => exec_inv i _ t hi h1)
    fun ir a b hd => raise_inv _ _ _ h1.1 (by simp) (infoFits_of_not_decoded ir a b hd)

/-- An accepted load stores the image, of at most 256 bytes, and changes nothing but memory (R254). -/
theorem load_next (image : List Byte) (s t : State) (h : load image s = .next t) :
    image.length ≤ 256 ∧ t = { s with mem := storeBytes image 0 s.mem } := by
  unfold load at h
  split at h
  case isTrue hl =>
    cases h
    exact ⟨(imageWellFormed_iff image).1 hl, rfl⟩
  case isFalse => cases h

theorem reset_inv : Inv State.reset := ⟨reset_mem_wf, rfl⟩

/-- Settles O58: an accepted image ends by address 256, so storing it keeps the canonical form. -/
theorem resetAndLaunchMeetTheInvariant : Obligations.ResetAndLaunchMeetTheInvariant := by
  unfold Obligations.ResetAndLaunchMeetTheInvariant
  refine ⟨reset_inv, fun image t h => ?_⟩
  obtain ⟨hl, rfl⟩ := load_next image State.reset t h
  exact ⟨storeBytes_wf image 0 _ reset_mem_wf (by omega), reset_inv.2⟩

end Sys2Proof.Machine
end

section
/-! PROOF. Frames over every instruction: which fields each may write (10_state.md R23, R28, R30, R33). -/

namespace Sys2Proof.Machine

/-- Settles O48: every outcome but those of PUSH, POP and IRET leaves sp. -/
theorem onlyStackInstructionsMoveSp : Obligations.OnlyStackInstructionsMoveSp := by
  unfold Obligations.OnlyStackInstructionsMoveSp
  intro i s t h
  apply exec_elim (P := fun u => u.sp ≠ s.sp → (∃ a, i = .push a) ∨ (∃ a, i = .pop a) ∨ i = .iret) i s t h
  case push => exact fun r hi _ _ => .inl ⟨_, hi⟩
  case pop => exact fun r hi _ _ => .inr (.inl ⟨_, hi⟩)
  case iret => exact fun hi _ _ => .inr (.inr hi)
  all_goals simp

/-- Settles O49: every outcome but those of CMP and IRET leaves fl. -/
theorem onlyCmpAndIretWriteFlags : Obligations.OnlyCmpAndIretWriteFlags := by
  unfold Obligations.OnlyCmpAndIretWriteFlags
  intro i s t h
  apply exec_elim (P := fun u => u.fl ≠ s.fl → (∃ a b, i = .cmp a b) ∨ i = .iret) i s t h
  case cmp => exact fun _ hi _ => .inl hi
  case iret => exact fun hi _ _ => .inr hi
  all_goals simp

/-- POP may write the register it names. -/
theorem writesReg_pop_regByte (r : Fin 8) : writesReg (.pop (regByte r)) r = true := by
  simp [writesReg, regIndex_regByte]

/-- Popping into a register leaves every other one. -/
theorem readReg_popReg_other (s : State) (r q : Fin 8) (h : q ≠ r) : readReg (popReg r s) q = readReg s q :=
  readReg_writeReg_other _ r q _ h

/-- Settles O50: a register that is written is in the write set, so one outside it is another one. -/
theorem registersOutsideTheWriteSetAreUnchanged : Obligations.RegistersOutsideTheWriteSetAreUnchanged := by
  unfold Obligations.RegistersOutsideTheWriteSetAreUnchanged
  intro i s t r h hr
  have other : ∀ q, writesReg i q = true → r ≠ q := by
    rintro q hq rfl
    rw [hr] at hq
    cases hq
  apply exec_elim (P := fun u => readReg u r = readReg s r) i s t h
  case wr => exact fun _ q v hq _ => readReg_writeReg_other s q r v (other q hq)
  case pop => exact fun q hi _ => readReg_popReg_other s q r (other q (hi ▸ writesReg_pop_regByte q))
  case iret =>
    intro hi _
    have h7 : r = 7 := by simpa [hi, writesReg] using hr
    exact h7 ▸ readReg_restoreFrame_seven s
  all_goals intros; rfl

/-- Settles O52: only the outcome of PRN and PRA appends to out, and none counts a cycle. -/
theorem outGrowsByPrnAndPraOnly : Obligations.OutGrowsByPrnAndPraOnly := by
  unfold Obligations.OutGrowsByPrnAndPraOnly
  intro i s t h
  apply exec_elim (P := fun u => u.cycle = s.cycle ∧
    (u.out = s.out ∨ ∃ e, u.out = s.out ++ [e] ∧ ((∃ a, i = .prn a) ∨ (∃ a, i = .pra a)))) i s t h
  case emt => exact fun _ e hi _ => ⟨rfl, .inr ⟨e, rfl, hi⟩⟩
  all_goals simp

/-- An instruction keeps everything already emitted. -/
theorem exec_out_prefix (i : Instr) (s t : State) (h : exec i s = .next t) : s.out <+: t.out := by
  rcases (outGrowsByPrnAndPraOnly i s t h).2 with ho | ⟨e, ho, -⟩
  · exact ho ▸ List.prefix_rfl
  · exact ho ▸ List.prefix_append _ _

/-- Settles O55: beginning the cycle counts it, phases 1 and 2 leave out and the count, and so does each end of the
cycle but for the event an instruction appends. -/
theorem stepExtendsTheOutput : Obligations.StepExtendsTheOutput := by
  unfold Obligations.StepExtendsTheOutput
  intro s t h
  obtain ⟨-, hc⟩ := step_next s t h
  obtain ⟨hout, hcycle⟩ := interruptCheck_out_cycle (beginCycle s)
  refine engineCycle_elim (P := fun u => s.out <+: u.out ∧ u.cycle = s.cycle + 1) _ _ t hc
    (fun _ => ⟨hout ▸ List.prefix_rfl, hcycle⟩) (fun i hi => ⟨?_, ?_⟩)
    fun _ _ _ _ => ⟨hout ▸ List.prefix_rfl, hcycle⟩
  · exact hout ▸ exec_out_prefix i (latchTick _ _) t hi
  · exact (outGrowsByPrnAndPraOnly i _ t hi).1.trans hcycle

/-! ### Phases 1 and 2 write bit 0 of x[6] only -/

/-- Or-ing the tick into a byte leaves bits 7 to 1. -/
theorem toNat_or_tick_div_two (v : Byte) (tick : Bool) :
    (v ||| (if tick then 0x01 else 0x00)).toNat / 2 = v.toNat / 2 := by
  cases tick <;> simp [BitVec.toNat_or, Nat.or_div_two]

/-- Clearing bit 0 of a byte leaves bits 7 to 1. -/
theorem toNat_and_clear_div_two (v : Byte) : (v &&& 0xFE).toNat / 2 = v.toNat / 2 := by
  have h : (0xFE : Byte).toNat / 2 = 2 ^ 7 - 1 := rfl
  rw [BitVec.toNat_and, Nat.and_div_two, h]
  exact Nat.and_two_pow_sub_one_of_lt_two_pow (by omega)

/-- Every register but bit 0 of x[6] is the same in two states. -/
def SameButStatusBit (s t : State) : Prop :=
  (∀ r : Fin 8, r ≠ 6 → readReg t r = readReg s r) ∧ (readReg t 6).toNat / 2 = (readReg s 6).toNat / 2

theorem SameButStatusBit.trans {s t u : State} (h : SameButStatusBit s t) (k : SameButStatusBit t u) :
    SameButStatusBit s u :=
  ⟨fun r hr => (k.1 r hr).trans (h.1 r hr), k.2.trans h.2⟩

theorem latchTick_sameButStatusBit (tick : Bool) (s : State) : SameButStatusBit s (latchTick tick s) := by
  refine ⟨fun r hr => readReg_writeReg_other s 6 r _ hr, ?_⟩
  rw [latchTick, intStatusReg, readReg_writeReg_same]
  exact toNat_or_tick_div_two _ tick

theorem clearStatus_sameButStatusBit (s : State) : SameButStatusBit s (clearStatus s) := by
  refine ⟨fun r hr => readReg_writeReg_other s 6 r _ hr, ?_⟩
  rw [clearStatus, intStatusReg, readReg_writeReg_same]
  exact toNat_and_clear_div_two _

theorem interruptCheck_sameButStatusBit (s : State) : SameButStatusBit s (interruptCheck s) := by
  refine interruptCheck_elim s (fun _ => ⟨fun _ _ => rfl, rfl⟩) (fun _ _ => ⟨fun _ _ => rfl, rfl⟩) fun _ _ => ?_
  have pushed : SameButStatusBit s (pushAll (frameBytes s) s) := ⟨fun r _ => by simp, by simp⟩
  exact pushed.trans (clearStatus_sameButStatusBit _)

/-- Settles O60: phase 1 clears at most bit 0 of x[6], phase 2 sets at most that bit. -/
theorem phasesOneAndTwoWriteOnlyStatusBitZero : Obligations.PhasesOneAndTwoWriteOnlyStatusBitZero := by
  unfold Obligations.PhasesOneAndTwoWriteOnlyStatusBitZero
  intro s tick
  exact (interruptCheck_sameButStatusBit s).trans (latchTick_sameButStatusBit tick _)

end Sys2Proof.Machine
end

section
/-! PROOF. The output port is write-only: more events in front of out pass through a cycle untouched (45_output.md
R170). -/

namespace Sys2Proof.Machine

/-- The state with more events in front of out. -/
def prependOut (es : List OutEvent) (s : State) : State := { s with out := es ++ s.out }

/-- A one-register instruction ignores earlier events when its effect does. -/
theorem withReg_prependOut (es : List OutEvent) (a : Byte) (s : State) (f g : Fin 8 → State)
    (h : ∀ r, g r = prependOut es (f r)) : withReg a (prependOut es s) g = prependOut es (withReg a s f) := by
  unfold withReg
  cases regIndex a with
  | none => rfl
  | some r => exact h r

/-- A two-register instruction ignores earlier events when its effect does. -/
theorem withRegs_prependOut (es : List OutEvent) (a b : Byte) (s : State) (f g : Fin 8 → Fin 8 → State)
    (h : ∀ r q, g r q = prependOut es (f r q)) :
    withRegs a b (prependOut es s) g = prependOut es (withRegs a b s f) :=
  withReg_prependOut es a s _ _ fun r => withReg_prependOut es b s _ _ (h r)

theorem emit_prependOut (es : List OutEvent) (e : OutEvent) (s : State) :
    emit e (prependOut es s) = prependOut es (emit e s) := by
  simp [emit, prependOut]

theorem interruptReturn_prependOut (es : List OutEvent) (s : State) :
    interruptReturn (prependOut es s) = prependOut es (interruptReturn s) := by
  simp only [interruptReturn, restoreFrame_eq, apply_ite (prependOut es)]
  rfl

/-- Phase 1 ignores earlier events. -/
theorem interruptCheck_prependOut (es : List OutEvent) (s : State) :
    interruptCheck (prependOut es s) = prependOut es (interruptCheck s) := by
  simp only [interruptCheck, interruptEntry, interruptEntryWith, apply_ite (prependOut es)]
  rfl

/-- Every instruction ignores earlier events: only PRN and PRA touch out, and they append at its other end. -/
theorem exec_prependOut (es : List OutEvent) (i : Instr) (s t : State) (h : exec i s = .next t) :
    exec i (prependOut es s) = .next (prependOut es t) := by
  cases i <;> cases h <;> refine congrArg Host.Outcome.next ?_
  case hlt | ret => rfl
  case iret => exact interruptReturn_prependOut es s
  case prn | pra =>
    exact withReg_prependOut es _ s _ _ fun r => congrArg (advance _) (emit_prependOut es _ s)
  case push | pop | jne =>
    refine withReg_prependOut es _ s _ _ fun r => ?_
    rw [apply_ite (prependOut es)]
    rfl
  case div =>
    refine withRegs_prependOut es _ _ s _ _ fun r q => ?_
    rw [apply_ite (prependOut es)]
    rfl
  case call | jmp | ldi | not => exact withReg_prependOut es _ s _ _ fun r => rfl
  case st | add | mul | cmp | sub | and | or | xor => exact withRegs_prependOut es _ _ s _ _ fun r q => rfl

/-- Phase 5 ignores earlier events. -/
theorem dispatch_prependOut (es : List OutEvent) (ir a b : Byte) (s t : State) (h : dispatch ir a b s = .next t) :
    dispatch ir a b (prependOut es s) = .next (prependOut es t) := by
  unfold dispatch at h ⊢
  cases hd : decodeFetched ir a b with
  | some i =>
    rw [hd] at h
    exact exec_prependOut es i s t h
  | none =>
    rw [hd] at h
    cases h
    rfl

/-- Settles O54: each phase ignores earlier events, and so does the run state that decides whether phase 1 ends the
cycle. -/
theorem outputIsNeverRead : Obligations.OutputIsNeverRead := by
  unfold Obligations.OutputIsNeverRead
  intro s t tick es h
  change engineCycle tick (prependOut es s) = .next (prependOut es t)
  have hcheck := interruptCheck_prependOut es s
  have hrun : (interruptCheck (prependOut es s)).run = (interruptCheck s).run := by
    rw [hcheck]
    rfl
  cases hr : (interruptCheck s).run with
  | halted =>
    rw [engineCycle_entry_fault tick s hr] at h
    cases h
    rw [engineCycle_entry_fault tick _ (hrun.trans hr), hcheck]
  | running =>
    rw [engineCycle_goes_on tick s hr] at h
    rw [engineCycle_goes_on tick _ (hrun.trans hr), hcheck]
    exact dispatch_prependOut es _ _ _ _ t h

end Sys2Proof.Machine
end

section
/-! PROOF. The reset values and the codes of halt_cause (10_state.md R32, R38). -/

namespace Sys2Proof.Machine

/-- Settles O9: each value of the reset state, and the reset input forces that state. -/
theorem resetLeavesTheSpecsValues : Obligations.ResetLeavesTheSpecsValues := by
  unfold Obligations.ResetLeavesTheSpecsValues
  have regs : ∀ r : Fin 8, readReg State.reset r = if r = 7 then 0xF4 else 0 := by decide
  exact ⟨fun _ => rfl, regs, rfl, rfl, rfl, rfl, rfl, rfl, rfl, rfl, rfl, fun _ => rfl⟩

/-- The cause a code of the table stands for. -/
def causeOfCode : Nat → HaltCause
  | 1 => .hlt
  | 2 => .unrecognizedOpcode
  | 3 => .stackFault
  | 4 => .regIndexFault
  | 5 => .divideByZero
  | _ => .none

theorem causeOfCode_haltCode (c : HaltCause) : causeOfCode (haltCode c) = c := by
  cases c <;> rfl

/-- Settles O36: the codes are the table's, and a code tells its cause. -/
theorem haltCodesAreTheTables : Obligations.HaltCodesAreTheTables := by
  unfold Obligations.HaltCodesAreTheTables
  have injective : Function.Injective haltCode := Function.LeftInverse.injective causeOfCode_haltCode
  exact ⟨rfl, rfl, rfl, rfl, rfl, rfl, fun _ _ h => injective h⟩

end Sys2Proof.Machine
end

section
/-! PROOF. Memory: the cell an instruction may change (20_memory.md R52, R66), and the canonical form as the only one
for its bytes (R50, R51, R59). -/

namespace Sys2Proof.Machine

/-! ### The memory frame -/

/-- `push8` leaves every byte but the one in the cell sp - 1. -/
theorem memRead_push8_other (s : State) (a v : Byte) (h : a ≠ s.sp - 1) : memRead (push8 v s) a = memRead s a :=
  memRead_memWrite_other (setSp (s.sp - 1) s) (s.sp - 1) a v h

/-- ST stores to the cell its first register holds the address of. -/
theorem storeAddress_st_regByte (r : Fin 8) (b : Byte) (s : State) :
    storeAddress (.st (regByte r) b) s = some (readReg s r) := by
  simp [storeAddress, regIndex_regByte]

/-- Settles O51: of all an instruction can do only the outcomes of PUSH, CALL and ST write memory, each in the cell of
`storeAddress`, so a cell that is not that one reads as before. -/
theorem bytesOutsideTheStoreAreUnchanged : Obligations.BytesOutsideTheStoreAreUnchanged := by
  unfold Obligations.BytesOutsideTheStoreAreUnchanged
  intro i s t a h ha
  have other : ∀ c, storeAddress i s = some c → a ≠ c := by
    rintro c hc rfl
    exact ha hc
  apply exec_elim (P := fun u => memRead u a = memRead s a) i s t h
  case push => exact fun r hi _ => memRead_push8_other s a _ (other _ (hi ▸ rfl))
  case call => exact fun r hi => memRead_memWrite_other s s.sp a _ (other _ (hi ▸ rfl))
  case st => exact fun r q hi => memRead_memWrite_other s _ a _ (other _ (hi ▸ storeAddress_st_regByte r _ s))
  case iret => exact fun _ _ => congrArg (Memory.read · a.toNat) (restoreFrame_mem s)
  all_goals intros; rfl

/-! ### One canonical form for the same bytes -/

theorem Memory.read_cons_same (c : Host.Cell) (m : Memory) : Memory.read (c :: m) c.1 = c.2 := by
  simp [Memory.read]

theorem Memory.read_cons_other (c : Host.Cell) (m : Memory) (a : Nat) (h : c.1 ≠ a) :
    Memory.read (c :: m) a = Memory.read m a := by
  simp [Memory.read, h]

/-- A canonical memory that reads alike at the address of an entry of another, not 0, starts no later than there. -/
theorem Memory.le_of_read_eq_cons (n m : Memory) (c : Host.Cell) (lo : Nat) (hn : Memory.wfFrom lo n = true)
    (hc : c.2 ≠ 0) (h : Memory.read (c :: m) c.1 = Memory.read n c.1) : lo ≤ c.1 := by
  by_contra hlt
  rw [Memory.read_cons_same, Memory.read_below n lo c.1 hn (by omega)] at h
  exact hc h

/-- Canonical lists that read alike are equal, by induction along both: neither first address lies before the other,
so the first entries agree, and behind them the rests read alike. -/
theorem Memory.eq_of_read_eq (m n : Memory) (lo : Nat) (hm : Memory.wfFrom lo m = true)
    (hn : Memory.wfFrom lo n = true) (h : ∀ a < 256, Memory.read m a = Memory.read n a) : m = n := by
  induction m generalizing n lo with
  | nil =>
    cases n with
    | nil => rfl
    | cons d n =>
      obtain ⟨-, hd, hd0, -⟩ := (Memory.wfFrom_cons _ _ _).1 hn
      have : 256 ≤ d.1 := Memory.le_of_read_eq_cons [] n d 256 rfl hd0 (h _ hd).symm
      omega
  | cons c m ih =>
    obtain ⟨-, hc, hc0, hm'⟩ := (Memory.wfFrom_cons _ _ _).1 hm
    cases n with
    | nil =>
      have : 256 ≤ c.1 := Memory.le_of_read_eq_cons [] m c 256 rfl hc0 (h _ hc)
      omega
    | cons d n =>
      obtain ⟨-, hd, hd0, hn'⟩ := (Memory.wfFrom_cons _ _ _).1 hn
      have hdc : d.1 ≤ c.1 := Memory.le_of_read_eq_cons (d :: n) m c d.1
        ((Memory.wfFrom_cons _ _ _).2 ⟨le_rfl, hd, hd0, hn'⟩) hc0 (h _ hc)
      have hcd : c.1 ≤ d.1 := Memory.le_of_read_eq_cons (c :: m) n d c.1
        ((Memory.wfFrom_cons _ _ _).2 ⟨le_rfl, hc, hc0, hm'⟩) hd0 (h _ hd).symm
      have addr : c.1 = d.1 := le_antisymm hcd hdc
      have byte : c.2 = d.2 := by
        rw [← Memory.read_cons_same c m, h _ hc, addr, Memory.read_cons_same]
      obtain rfl : c = d := Prod.ext addr byte
      refine congrArg (c :: ·) (ih n (c.1 + 1) hm' hn' fun a ha => ?_)
      rcases Nat.lt_or_ge c.1 a with hlt | hle
      · rw [← Memory.read_cons_other c m a hlt.ne, h a ha, Memory.read_cons_other c n a hlt.ne]
      · rw [Memory.read_below m _ a hm' (by omega), Memory.read_below n _ a hn' (by omega)]

/-- Settles O57: every address below 256 is a byte, so the lists read alike wherever they have an entry. -/
theorem canonicalMemoriesThatReadAlikeAreEqual : Obligations.CanonicalMemoriesThatReadAlikeAreEqual := by
  unfold Obligations.CanonicalMemoriesThatReadAlikeAreEqual
  intro m n hm hn h
  exact Memory.eq_of_read_eq m n 0 hm hn fun a ha => by
    simpa [Nat.mod_eq_of_lt ha] using h (BitVec.ofNat 8 a)

end Sys2Proof.Machine
end

section
/-! PROOF. The decoder and the encoder undo each other, and the dispatch table is what the decoder recognizes
(30_encoding.md R80 to R92, 47_scope_named_extension.md R190). -/

namespace Sys2Proof.Machine

/-! ### The dispatcher's lookup -/

/-- The lookup finds the row of every opcode byte: the table keeps no byte twice (R86, R87). -/
theorem opOfByte_OPC (o : Op) : opOfByte Config.extHandlers (OPC o) = some o := by
  cases o <;> rfl

/-- The row the lookup finds is the row of that byte. -/
theorem OPC_eq_of_opOfByte (ext : Bool) (ir : Byte) (o : Op) (h : opOfByte ext ir = some o) : OPC o = ir :=
  eq_of_beq (List.find?_some h :)

/-- A fetch is recognized exactly when its first byte, whatever follows, is the opcode byte of a row present (R87). -/
theorem decodeFetchedWith_isSome_iff (ext : Bool) (ir a b : Byte) :
    (decodeFetchedWith ext ir a b).isSome = true ↔ ir ∈ (presentOps ext).map OPC := by
  simp [decodeFetchedWith, opOfByte]

/-- The base rows' bytes, in the order of `baseOps`. -/
theorem map_OPC_baseOps : baseOps.map OPC = baseBytes := rfl

/-- `extBytes` lists the ext rows' bytes in another order than `extOps`. -/
theorem map_OPC_extOps_perm : (extOps.map OPC).Perm extBytes := by decide

/-! ### The byte stream, row by row -/

/-- A row of width 1 is decoded from its opcode byte alone. -/
theorem decode_width_one (o : Op) (rest : List Byte) (h : decodeWidth (OPC o) = 1) :
    decode (OPC o :: rest) = .ok (buildInstr o 0 0, rest) := by
  simp [decode, opOfByte_OPC, h]

/-- A row of width 2 takes one operand byte. -/
theorem decode_width_two (o : Op) (a : Byte) (rest : List Byte) (h : decodeWidth (OPC o) = 2) :
    decode (OPC o :: a :: rest) = .ok (buildInstr o a 0, rest) := by
  simp [decode, opOfByte_OPC, h]

/-- A row of width 3 takes two operand bytes. -/
theorem decode_width_three (o : Op) (a b : Byte) (rest : List Byte) (h : decodeWidth (OPC o) = 3) :
    decode (OPC o :: a :: b :: rest) = .ok (buildInstr o a b, rest) := by
  simp [decode, opOfByte_OPC, h]

/-- The encoding of a row's instruction is as many of the opcode byte and the two operand bytes as the opcode byte's
width says: no handler uses an operand byte past it (R83, R84). -/
theorem encode_buildInstr (o : Op) (a b : Byte) :
    encode (buildInstr o a b) = [OPC o, a, b].take (decodeWidth (OPC o)) := by
  cases o <;> rfl

/-- Everything `decode` can answer but an error, once: a row's instruction, from as many bytes as the row is wide. -/
theorem decode_ok (bs : List Byte) (i : Instr) (rest : List Byte) (h : decode bs = .ok (i, rest)) :
    ∃ o a b, i = buildInstr o a b ∧ bs = [OPC o, a, b].take (decodeWidth (OPC o)) ++ rest := by
  cases bs with
  | nil => cases h
  | cons ir tl =>
    cases ho : opOfByte Config.extHandlers ir with
    | none => simp [decode, ho] at h
    | some o =>
      obtain rfl := OPC_eq_of_opOfByte _ ir o ho
      simp only [decode, ho] at h
      split at h <;> cases h
      next hw => exact ⟨o, 0, 0, rfl, by simp [hw]⟩
      next a hw => exact ⟨o, a, 0, rfl, by simp [hw]⟩
      next a b hw => exact ⟨o, a, b, rfl, by simp [hw]⟩

/-- Settles O1: each encoding is its row's opcode byte and the operand bytes the width of that byte counts. -/
theorem decodeUndoesEncode : Obligations.DecodeUndoesEncode := by
  unfold Obligations.DecodeUndoesEncode
  intro i rest
  cases i
  case hlt | ret | iret => exact decode_width_one _ rest rfl
  case push | pop | prn | pra | call | jmp | jne | not => exact decode_width_two _ _ rest rfl
  case ldi | st | add | mul | cmp | sub | div | and | or | xor => exact decode_width_three _ _ _ rest rfl

/-- Settles O2: a string that decodes is a row's bytes up to its width and the rest, and these are the encoding. -/
theorem encodeUndoesDecode : Obligations.EncodeUndoesDecode := by
  unfold Obligations.EncodeUndoesDecode
  intro bs i rest h
  obtain ⟨o, a, b, rfl, rfl⟩ := decode_ok bs i rest h
  rw [encode_buildInstr]

/-- `decode` answers an instruction and a rest exactly on the encoding followed by the rest. -/
theorem decode_eq_ok_iff (bs : List Byte) (i : Instr) (rest : List Byte) :
    decode bs = .ok (i, rest) ↔ encode i ++ rest = bs :=
  ⟨fun h => (encodeUndoesDecode bs i rest h).symm, fun h => h ▸ decodeUndoesEncode i rest⟩

/-! ### The fetched bytes -/

/-- Three bytes are enough for every row: none is of width 4 (R84). -/
theorem decode_three_bytes (o : Op) (a b : Byte) :
    decode [OPC o, a, b] = .ok (buildInstr o a b, [OPC o, a, b].drop (decodeWidth (OPC o))) := by
  cases o <;> rfl

/-- Dispatch reads in the three fetched bytes the instruction the stream decoder finds at their start. -/
theorem decodeFetched_eq_some_iff (i : Instr) (ir a b : Byte) :
    decodeFetched ir a b = some i ↔ ∃ rest, decode [ir, a, b] = .ok (i, rest) := by
  cases ho : opOfByte Config.extHandlers ir with
  | none => simp [decodeFetched, decodeFetchedWith, decode, ho]
  | some o =>
    obtain rfl := OPC_eq_of_opOfByte _ ir o ho
    simp [decodeFetched, decodeFetchedWith, ho, decode_three_bytes]

/-- Settles O3: the fetched bytes decode to `i` as a byte stream, so they are its encoding and a rest. -/
theorem fetchedBytesDecodeByTheirEncoding : Obligations.FetchedBytesDecodeByTheirEncoding := by
  unfold Obligations.FetchedBytesDecodeByTheirEncoding
  intro i ir a b
  exact (decodeFetched_eq_some_iff i ir a b).trans (exists_congr fun rest => decode_eq_ok_iff _ i rest)

/-- Settles O5: the opcode bytes of the rows present are the base bytes, and with the ext rows the ext bytes too. -/
theorem recognizedBytesAreTheTable : Obligations.RecognizedBytesAreTheTable := by
  unfold Obligations.RecognizedBytesAreTheTable
  intro ir a b
  have base : ir ∈ (presentOps false).map OPC ↔ ir ∈ baseBytes := by
    rw [← map_OPC_baseOps, presentOps, if_neg Bool.false_ne_true]
  have all : ir ∈ (presentOps true).map OPC ↔ ir ∈ baseBytes ∨ ir ∈ extBytes := by
    rw [← map_OPC_baseOps, ← map_OPC_extOps_perm.mem_iff, presentOps, if_pos rfl, List.map_append, List.mem_append]
  have present := (decodeFetchedWith_isSome_iff true ir a b).trans all
  exact ⟨(decodeFetchedWith_isSome_iff false ir a b).trans base, present, present⟩

/-- Settles O4: each word evaluates to its instruction. -/
theorem sampleWordsDecodeToTheirInstructions : Obligations.SampleWordsDecodeToTheirInstructions :=
  ⟨rfl, rfl, rfl, rfl, rfl, rfl, rfl, rfl, rfl, rfl, rfl, rfl⟩

/-! ### The width -/

/-- The top two bits of a byte are its value divided by 64 (R82). -/
theorem decodeWidth_eq (ir : Byte) : decodeWidth ir = ir.toNat / 64 + 1 := by
  simp [decodeWidth, Nat.shiftRight_eq_div_pow]

/-- No row is of width 4. -/
theorem decodeWidth_OPC_le (o : Op) : decodeWidth (OPC o) ≤ 3 := by
  cases o <;> decide

/-- An encoding is as long as its first byte says: a row's bytes are cut off at the row's width. -/
theorem decodeWidth_head_encode (i : Instr) : (encode i).head?.map decodeWidth = some (encode i).length := by
  obtain ⟨o, a, b, rfl, -⟩ := decode_ok _ i [] (decodeUndoesEncode i [])
  have width := decodeWidth_eq (OPC o)
  have le := decodeWidth_OPC_le o
  simp [encode_buildInstr, List.head?_take, show decodeWidth (OPC o) ≠ 0 by omega, le]

/-- Settles O6: the quotient of a byte by 64 is at most 3, and each opcode byte counts its row's bytes. -/
theorem widthIsTopTwoBitsPlusOne : Obligations.WidthIsTopTwoBitsPlusOne := by
  unfold Obligations.WidthIsTopTwoBitsPlusOne
  refine ⟨fun ir => ⟨decodeWidth_eq ir, ?_⟩, decodeWidth_head_encode⟩
  have width := decodeWidth_eq ir
  have lt := ir.isLt
  omega

/-! ### A next state for every instruction and every cycle -/

/-- Every handler answers a next state, a fatal condition being one too (R215, log entry 9). -/
theorem exec_next (i : Instr) (s : State) : ∃ t, exec i s = .next t := by
  cases i <;> exact ⟨_, rfl⟩

/-- Settles O34: a cycle ends in phase 1, in a handler, or with UnrecognizedOpcode, each a next state. -/
theorem everyInstructionAnswersANextState : Obligations.EveryInstructionAnswersANextState := by
  unfold Obligations.EveryInstructionAnswersANextState
  refine ⟨exec_next, fun s tick => ?_⟩
  cases hr : (interruptCheck s).run with
  | halted => exact ⟨_, engineCycle_entry_fault tick s hr⟩
  | running =>
    rw [engineCycle_goes_on tick s hr]
    rcases fetchAndDispatch_cases (latchTick tick (interruptCheck s)) with ⟨i, -, he⟩ | ⟨-, he⟩
    · exact he ▸ exec_next i _
    · exact ⟨_, he⟩

end Sys2Proof.Machine
end

section
/-! PROOF. The phases of a cycle in order, and where each instruction leaves pc (40_engine_cycle.md R110 to R120,
60_exceptions.md R230). -/

namespace Sys2Proof.Machine

/-! ### From the fetch to the handler -/

/-- Phase 5 on fetched bytes that decode is the instruction's handler (R116). -/
theorem fetchAndDispatch_decoded (s : State) (i : Instr)
    (h : decodeFetched (memRead s s.pc) (memRead s (s.pc + 1)) (memRead s (s.pc + 2)) = some i) :
    fetchAndDispatch s = exec i s := by
  rw [fetchAndDispatch, dispatch, h]

/-- Phase 5 on fetched bytes that do not decode stops with the byte at pc (R88, R211). -/
theorem fetchAndDispatch_unrecognized (s : State)
    (h : decodeFetched (memRead s s.pc) (memRead s (s.pc + 1)) (memRead s (s.pc + 2)) = none) :
    fetchAndDispatch s = .next (raise .unrecognizedOpcode (memRead s s.pc) s) := by
  rw [fetchAndDispatch, dispatch, h]

/-- A step whose phase 1 leaves the engine RUNNING latches this cycle's tick and fetches (R110, R124). -/
theorem step_goes_on (s : State) (hs : s.run = .running) (h : (interruptCheck (beginCycle s)).run = .running) :
    step s = fetchAndDispatch (latchTick (Config.timer (s.cycle + 1)) (interruptCheck (beginCycle s))) := by
  rw [step_running s hs, engineCycle_goes_on _ _ h]

/-- Where no interrupt is taken, phase 1 only counts the cycle (R225). -/
theorem interruptCheck_beginCycle (s : State) (h : interruptTaken s = false) :
    interruptCheck (beginCycle s) = beginCycle s :=
  interruptCheck_not_taken (beginCycle s) h

/-- Settles O7: the step goes through phases 1 and 2 and ends in the branch of phase 5 the fetched bytes select, unless
phase 1 ended it; the last clause is the first where phase 1 changes nothing. -/
theorem stepRunsTheDecodedInstruction : Obligations.StepRunsTheDecodedInstruction := by
  unfold Obligations.StepRunsTheDecodedInstruction
  refine ⟨fun s hs => ⟨fun i hr hf => ?_, fun hr hf => ?_, fun hr => ?_⟩, fun s i hs ht hf => ?_⟩
  · rw [step_goes_on s hs hr, fetchAndDispatch_decoded _ i hf]
  · rw [step_goes_on s hs hr, fetchAndDispatch_unrecognized _ hf]
    rfl
  · rw [step_running s hs, engineCycle_entry_fault _ _ hr]
  · have check := interruptCheck_beginCycle s ht
    rw [step_goes_on s hs ((congrArg State.run check).trans hs), check]
    exact fetchAndDispatch_decoded _ i hf

/-- Settles O8: `step` answers its one fault there. -/
theorem haltedEngineHasNoStep : Obligations.HaltedEngineHasNoStep := by
  unfold Obligations.HaltedEngineHasNoStep
  exact step_halted

/-- An entry with room for its frame leaves the engine as it ran (R226). -/
theorem interruptEntry_run (s : State) (h : 9 ≤ s.sp.toNat) : (interruptEntry s).run = s.run := by
  rw [interruptEntry, interruptEntryWith_saves _ s h, vectorPc_run, clearStatus_run, pushAll_fields]
  rfl

/-- Settles O41: phase 1 is the entry, and a RUNNING engine it leaves goes on with phases 2 to 5 there. -/
theorem theHandlerRunsInTheEntryCycle : Obligations.TheHandlerRunsInTheEntryCycle := by
  unfold Obligations.TheHandlerRunsInTheEntryCycle
  intro s tick hs ht hroom
  have check := interruptCheck_taken s ht
  have running : (interruptCheck s).run = .running := by rw [check, interruptEntry_run s hroom, hs]
  rw [engineCycle_goes_on tick s running, check]

/-! ### Where an instruction leaves pc -/

/-- `next` of the row an encoding begins with lies the encoding's length after pc (R83, R119). -/
theorem nextPc_of_head_encode (o : Op) (i : Instr) (s : State) (h : OPC o ∈ (encode i).head?) :
    nextPc o s = s.pc + BitVec.ofNat 8 (encode i).length := by
  have width := decodeWidth_head_encode i
  rw [Option.mem_def.1 h, Option.map_some, Option.some_inj] at width
  rw [nextPc, width]

/-- The instructions that assign pc directly (R120). -/
inductive AssignsPc : Instr → Prop
  | call (a : Byte) : AssignsPc (.call a)
  | ret : AssignsPc .ret
  | jmp (a : Byte) : AssignsPc (.jmp a)
  | jne (a : Byte) : AssignsPc (.jne a)
  | iret : AssignsPc .iret

/-- What an instruction does to pc, once: a stop changes the status outputs only, and every other outcome keeps the
engine as it ran and moves pc past the encoding, unless the instruction assigns pc directly. -/
theorem exec_pc (i : Instr) (s t : State) (h : exec i s = .next t) :
    (∃ cause info, t = raise cause info s) ∨
    t.run = s.run ∧ (AssignsPc i ∨ t.pc = s.pc + BitVec.ofNat 8 (encode i).length) := by
  have sequential : ∀ o, OPC o ∈ (encode i).head? → nextPc o s = s.pc + BitVec.ofNat 8 (encode i).length :=
    fun o => nextPc_of_head_encode o i s
  apply exec_elim (P := fun u => (∃ cause info, u = raise cause info s) ∨
    u.run = s.run ∧ (AssignsPc i ∨ u.pc = s.pc + BitVec.ofNat 8 (encode i).length)) i s t h
  case hlt | stk | dvz => exact fun _ => .inl ⟨_, _, rfl⟩
  case bad => exact fun _ _ _ _ => .inl ⟨_, _, rfl⟩
  case ret => exact fun hi => .inr ⟨rfl, .inl (hi ▸ .ret)⟩
  case iret =>
    intro hi _
    rw [restoreFrame_eq]
    exact .inr ⟨rfl, .inl (hi ▸ .iret)⟩
  case call => exact fun _ hi => .inr ⟨rfl, .inl (hi ▸ .call _)⟩
  case jmp =>
    rintro _ (hi | hi)
    · exact .inr ⟨rfl, .inl (hi ▸ .jmp _)⟩
    · exact .inr ⟨rfl, .inl (hi ▸ .jne _)⟩
  case jne => exact fun _ hi => .inr ⟨rfl, .inl (hi ▸ .jne _)⟩
  case push | pop => exact fun _ hi _ => .inr ⟨rfl, .inr (sequential _ (hi ▸ rfl))⟩
  case emt => exact fun o _ _ ho => .inr ⟨rfl, .inr (sequential o ho)⟩
  case wr => exact fun o _ _ _ ho => .inr ⟨rfl, .inr (sequential o ho)⟩
  case st => exact fun _ _ hi => .inr ⟨rfl, .inr (sequential _ (hi ▸ rfl))⟩
  case cmp =>
    rintro v ⟨a, b, hi⟩
    exact .inr ⟨rfl, .inr (sequential _ (hi ▸ rfl))⟩

/-- Settles O53: a stop halts and keeps pc, and any other outcome leaves a RUNNING engine RUNNING. -/
theorem sequentialInstructionsAdvanceByTheirWidth : Obligations.SequentialInstructionsAdvanceByTheirWidth := by
  unfold Obligations.SequentialInstructionsAdvanceByTheirWidth
  intro i s t hs h
  rcases exec_pc i s t h with ⟨cause, info, rfl⟩ | ⟨hr, hpc⟩
  · exact ⟨(nomatch ·), fun _ => rfl⟩
  · refine ⟨fun _ hcall hret hjmp hjne hiret => ?_, fun halted => ?_⟩
    · refine hpc.resolve_left fun direct => ?_
      cases direct with
      | call a => exact hcall a rfl
      | ret => exact hret rfl
      | jmp a => exact hjmp a rfl
      | jne a => exact hjne a rfl
      | iret => exact hiret rfl
    · cases halted.symm.trans (hr.trans hs)

end Sys2Proof.Machine
end

section
/-! PROOF. LDI and ST (41_load_store.md R130, R131), after what every instruction with register operands shares: the
faults its operand form gives it (40_engine_cycle.md R121, R122) and the pc advance of a three-byte one (R119). -/

namespace Sys2Proof.Machine

/-! ### What instructions with register operands share -/

/-- An instruction whose meaning is guarded by one register operand faults for every byte above 7, whatever its effect. -/
theorem faultsAboveSeven_of_withReg (mk : Byte → Instr) (effect : State → Fin 8 → State)
    (h : ∀ a s, exec (mk a) s = .next (withReg a s (effect s))) : FaultsAboveSeven mk := by
  intro s a ha
  rw [h, withReg_above a s _ ha]
  rfl

/-- The first of two register operands above 7 faults. -/
theorem withRegs_above (a b : Byte) (s : State) (f : Fin 8 → Fin 8 → State) (h : 7 < a.toNat) :
    withRegs a b s f = raise .regIndexFault a s :=
  withReg_above a s _ h

/-- The second of two register operands above 7 faults where the first names a register. -/
theorem withRegs_second_above (a b : Byte) (s : State) (f : Fin 8 → Fin 8 → State) (ha : a.toNat ≤ 7)
    (hb : 7 < b.toNat) : withRegs a b s f = raise .regIndexFault b s := by
  obtain ⟨ra, rfl⟩ := (regByte_iff a).1 ha
  rw [withRegs, withReg_regByte, withReg_above b s _ hb]

/-- An instruction whose meaning is guarded by two register operands faults for the first byte above 7, whatever its
effect. -/
theorem faultsAboveSevenInOrder_of_withRegs (mk : Byte → Byte → Instr) (effect : State → Fin 8 → Fin 8 → State)
    (h : ∀ a b s, exec (mk a b) s = .next (withRegs a b s (effect s))) : FaultsAboveSevenInOrder mk := by
  intro s a b
  rw [h]
  refine ⟨fun ha => ?_, fun ha hb => ?_⟩
  · rw [withRegs_above a b s _ ha]
    rfl
  · rw [withRegs_second_above a b s _ ha hb]
    rfl

/-- The rows of three bytes advance pc by 3 (R26, R119). -/
theorem advance_three_bytes (o : Op) (h : o ∈ [Op.ldi, .st, .add, .mul, .cmp, .sub, .div, .and, .or, .xor])
    (s : State) : advance o s = { s with pc := s.pc + 3 } := by
  rw [advance, decodeWidth_f2 o h, setPc]

/-! ### LDI -/

/-- LDI in the operations it is made of (R130). -/
theorem exec_ldi (a b : Byte) (s : State) :
    exec (.ldi a b) s = .next (withReg a s fun ra => advance .ldi (writeReg ra b s)) := rfl

/-- Settles O11: with a register in operand a only the write and the three-byte advance remain; the check of the operand
comes before both. -/
theorem ldiLoadsTheImmediate : Obligations.LdiLoadsTheImmediate := by
  unfold Obligations.LdiLoadsTheImmediate
  refine ⟨fun _ _ => rfl, fun s ra b => ?_, fun b => ?_⟩
  · rw [exec_ldi, withReg_regByte, advance_three_bytes .ldi (by decide), writeReg]
  · exact faultsAboveSeven_of_withReg _ _ fun a s => exec_ldi a b s

/-! ### ST -/

/-- ST in the operations it is made of (R131). -/
theorem exec_st (a b : Byte) (s : State) :
    exec (.st a b) s = .next (withRegs a b s fun ra rb => advance .st (memWrite (readReg s ra) (readReg s rb) s)) := rfl

/-- Settles O12: with registers in both operands only the store and the three-byte advance remain; the checks, a before
b, come before both. -/
theorem stStoresAtTheRegisterAddress : Obligations.StStoresAtTheRegisterAddress := by
  unfold Obligations.StStoresAtTheRegisterAddress
  refine ⟨fun _ _ => rfl, fun s ra rb => ?_, ?_⟩
  · rw [exec_st, withRegs_regByte, advance_three_bytes .st (by decide), memWrite]
  · exact faultsAboveSevenInOrder_of_withRegs _ _ exec_st

end Sys2Proof.Machine
end

section
/-! PROOF. ADD, MUL and CMP (42_alu.md R140 to R142), after the shape x[ra] <- f(x[ra], x[rb]) the binary ALU
instructions share. -/

namespace Sys2Proof.Machine

/-! ### What the binary ALU instructions share -/

/-- On registers a binary ALU instruction writes its function's value to x[ra] and advances pc by 3, nothing else. -/
theorem aluBinary_regByte (o : Op) (h : o ∈ [Op.ldi, .st, .add, .mul, .cmp, .sub, .div, .and, .or, .xor])
    (f : Byte → Byte → Byte) (ra rb : Fin 8) (s : State) :
    aluBinary o f (regByte ra) (regByte rb) s =
      { s with x := s.x.set ra (f (readReg s ra) (readReg s rb)), pc := s.pc + 3 } := by
  rw [aluBinary, withRegs_regByte, advance_three_bytes o h, writeReg]

/-- A binary ALU instruction faults for the first register operand above 7, whatever its function. -/
theorem faultsAboveSevenInOrder_of_aluBinary (mk : Byte → Byte → Instr) (o : Op) (f : Byte → Byte → Byte)
    (h : ∀ a b s, exec (mk a b) s = .next (aluBinary o f a b s)) : FaultsAboveSevenInOrder mk :=
  faultsAboveSevenInOrder_of_withRegs mk _ h

/-! ### ADD -/

/-- ADD in the operations it is made of (R140). -/
theorem exec_add (a b : Byte) (s : State) :
    exec (.add a b) s = .next (aluBinary .add (fun p q => p + q) a b s) := rfl

/-- Settles O13: the sum of two bytes is their integer sum narrowed to 8 bits; the rest is every binary ALU
instruction's. -/
theorem addIsSumModulo256 : Obligations.AddIsSumModulo256 := by
  unfold Obligations.AddIsSumModulo256
  refine ⟨fun _ _ => rfl, fun s ra rb => ?_, ?_⟩
  · rw [exec_add, aluBinary_regByte .add (by decide), BitVec.add_def]
  · exact faultsAboveSevenInOrder_of_aluBinary _ _ _ exec_add

/-! ### MUL -/

/-- MUL in the operations it is made of (R141). -/
theorem exec_mul (a b : Byte) (s : State) :
    exec (.mul a b) s = .next (aluBinary .mul (fun p q => p * q) a b s) := rfl

/-- Settles O14: the product of two bytes is their integer product narrowed to 8 bits; the rest is every binary ALU
instruction's. -/
theorem mulIsProductModulo256 : Obligations.MulIsProductModulo256 := by
  unfold Obligations.MulIsProductModulo256
  refine ⟨fun _ _ => rfl, fun s ra rb => ?_, ?_⟩
  · rw [exec_mul, aluBinary_regByte .mul (by decide)]
    simp only [BitVec.ofNat_mul, BitVec.ofNat_toNat, BitVec.setWidth_eq]
  · exact faultsAboveSevenInOrder_of_aluBinary _ _ _ exec_mul

/-! ### CMP -/

/-- The flags of a comparison, by the unsigned values of the two bytes (R142, R144). -/
theorem compareFlags_eq (p q : Byte) :
    compareFlags p q = if p.toNat = q.toNat then 0x01 else if p.toNat > q.toNat then 0x02 else 0x04 := by
  simp only [compareFlags, BitVec.toNat_eq, flEqual, flGreater, flLess, gt_iff_lt]

/-- CMP in the operations it is made of (R142). -/
theorem exec_cmp (a b : Byte) (s : State) : exec (.cmp a b) s =
    .next (withRegs a b s fun ra rb => advance .cmp (setFl (compareFlags (readReg s ra) (readReg s rb)) s)) := rfl

/-- Settles O15: with registers in both operands only the write of `fl` and the three-byte advance remain; two bytes are
equal exactly when their unsigned values are. -/
theorem cmpSetsExactlyOneFlag : Obligations.CmpSetsExactlyOneFlag := by
  unfold Obligations.CmpSetsExactlyOneFlag
  refine ⟨fun _ _ => rfl, fun s ra rb => ?_, ?_⟩
  · rw [exec_cmp, withRegs_regByte, advance_three_bytes .cmp (by decide), setFl, compareFlags_eq]
  · exact faultsAboveSevenInOrder_of_withRegs _ _ exec_cmp

end Sys2Proof.Machine
end

section
/-! PROOF. PUSH and POP (43_stack.md R152 to R154), after the pc advance of a two-byte instruction (R119) and what the
cell under sp holds once it is pushed. -/

namespace Sys2Proof.Machine

/-! ### What PUSH and POP are made of -/

/-- The rows of two bytes advance pc by 2 (R26, R119). -/
theorem advance_two_bytes (o : Op) (h : o ∈ [Op.push, .pop, .prn, .pra, .call, .jmp, .jne, .not]) (s : State) :
    advance o s = { s with pc := s.pc + 2 } := by
  rw [advance, decodeWidth_f1 o h, setPc]

/-- Below a stack pointer that is not 0 there is a cell, one address down. -/
theorem toNat_sub_one_of_ne_zero (v : Byte) (h : v ≠ 0) : (v - 1).toNat = v.toNat - 1 := by
  bv_omega

/-- The byte pushed is in the cell the new sp addresses (R150). -/
theorem memRead_push8_same (s : State) (v : Byte) (hm : Memory.wf s.mem = true) : memRead (push8 v s) (s.sp - 1) = v :=
  memRead_memWrite_same (setSp (s.sp - 1) s) (s.sp - 1) v hm

/-! ### PUSH -/

/-- PUSH in the operations it is made of (R152). -/
theorem exec_push (a : Byte) (s : State) : exec (.push a) s = .next (withReg a s fun ra =>
    if s.sp = 0 then raise .stackFault 0 s else advance .push (push8 (readReg s ra) s)) := rfl

/-- With a cell below sp, PUSH of a register pushes its value. -/
theorem exec_push_regByte (s : State) (r : Fin 8) (h : s.sp ≠ 0) :
    exec (.push (regByte r)) s = .next (advance .push (push8 (readReg s r) s)) := by
  rw [exec_push, withReg_regByte, if_neg h]

/-- Settles O22: at sp = 0 the bound alone decides; elsewhere only `push8` and the two-byte advance remain, and the cell
they store to is one below sp; the check of the operand comes before both. -/
theorem pushStoresBelowSp : Obligations.PushStoresBelowSp := by
  unfold Obligations.PushStoresBelowSp
  refine ⟨fun _ => rfl, fun s ra h => ?_, fun s ra h => ?_, ?_⟩
  · rw [exec_push_regByte s ra h, advance_two_bytes .push (by decide), push8, memWrite, setSp,
      toNat_sub_one_of_ne_zero s.sp h]
  · rw [exec_push, withReg_regByte, if_pos h, raise]
  · exact faultsAboveSeven_of_withReg _ _ exec_push

/-! ### POP -/

/-- POP in the operations it is made of (R153). -/
theorem exec_pop (a : Byte) (s : State) : exec (.pop a) s = .next (withReg a s fun ra =>
    if s.sp = 255 then raise .stackFault 0 s else advance .pop (popReg ra s)) := rfl

/-- With a cell above sp, POP into a register pops the byte at sp. -/
theorem exec_pop_regByte (s : State) (r : Fin 8) (h : s.sp ≠ 255) :
    exec (.pop (regByte r)) s = .next (advance .pop (popReg r s)) := by
  rw [exec_pop, withReg_regByte, if_neg h]

/-- Settles O23: at sp = 255 the bound alone decides; elsewhere only `popReg` and the two-byte advance remain; the check
of the operand comes before both. -/
theorem popReadsAtSp : Obligations.PopReadsAtSp := by
  unfold Obligations.PopReadsAtSp
  refine ⟨fun _ => rfl, fun s ra h => ?_, fun s ra h => ?_, ?_⟩
  · rw [exec_pop_regByte s ra h, advance_two_bytes .pop (by decide), popReg, writeReg, pop8, setSp]
  · rw [exec_pop, withReg_regByte, if_pos h, raise]
  · exact faultsAboveSeven_of_withReg _ _ exec_pop

/-! ### PUSH, then POP -/

/-- Settles O45: PUSH leaves sp below 255, so POP succeeds; it reads the cell PUSH wrote and undoes the move of sp. -/
theorem pushThenPopRoundTrips : Obligations.PushThenPopRoundTrips := by
  unfold Obligations.PushThenPopRoundTrips
  intro s r q hm hsp
  have room : (advance .push (push8 (readReg s r) s)).sp ≠ 255 := by
    rw [advance_sp, push8_sp]
    bv_omega
  have pushed : memRead (push8 (readReg s r) s) (s.sp - 1) = readReg s r := memRead_push8_same s _ hm
  refine ⟨_, _, exec_push_regByte s r hsp, exec_pop_regByte _ q room, ?_, ?_, ?_, ?_⟩
  · rw [advance_sp, popReg_sp, advance_sp, push8_sp, BitVec.sub_add_cancel]
  · rw [advance_x, popReg_x, advance_x, push8_x, advance_sp, push8_sp, memRead_advance, pushed]
  · rw [memRead_advance, memRead_popReg, memRead_advance, pushed]
  · rw [advance_two_bytes .pop (by decide), popReg_pc, advance_two_bytes .push (by decide), push8_pc, BitVec.add_assoc]
    rfl

end Sys2Proof.Machine
end

section
/-! PROOF. CALL, RET and JMP (44_control_flow.md R160 to R163), under the spec's discipline and the symmetric one. -/

namespace Sys2Proof.Machine

/-! ### CALL -/

/-- CALL in the operations it is made of (R160): the store at sp, then the jump. -/
theorem exec_call (a : Byte) (s : State) : exec (.call a) s = .next (withReg a s fun ra =>
    setPc (readReg s ra) (memWrite s.sp (nextPc .call s) s)) := rfl

/-- CALL of a register stores the address of the instruction after it (D8). -/
theorem exec_call_regByte (s : State) (r : Fin 8) :
    exec (.call (regByte r)) s = .next (setPc (readReg s r) (memWrite s.sp (s.pc + 2) s)) := by
  rw [exec_call, withReg_regByte, decodeWidth_f1 .call (by decide)]

/-- Settles O24: with a register in operand a only the store at sp and the jump remain, and neither moves sp; the check
of the operand comes before both. -/
theorem callStoresReturnAddressAtSp : Obligations.CallStoresReturnAddressAtSp := by
  unfold Obligations.CallStoresReturnAddressAtSp
  refine ⟨fun _ => rfl, fun s ra => ?_, ?_⟩
  · rw [exec_call_regByte, memWrite, setPc]
  · exact faultsAboveSeven_of_withReg _ _ exec_call

/-! ### JMP -/

/-- JMP in the operations it is made of (R162). -/
theorem exec_jmp (a : Byte) (s : State) : exec (.jmp a) s = .next (withReg a s fun ra => setPc (readReg s ra) s) := rfl

/-- Settles O26: with a register in operand a only the write of pc remains; the check of the operand comes before it. -/
theorem jmpJumpsToTheRegister : Obligations.JmpJumpsToTheRegister := by
  unfold Obligations.JmpJumpsToTheRegister
  refine ⟨fun _ => rfl, fun s ra => ?_, ?_⟩
  · rw [exec_jmp, withReg_regByte, setPc]
  · exact faultsAboveSeven_of_withReg _ _ exec_jmp

/-! ### RET -/

/-- RET in the operations it is made of (R161): a read at sp and a jump. -/
theorem exec_ret (s : State) : exec .ret s = .next (setPc (memRead s s.sp) s) := rfl

/-- Settles O25: RET has no operand to check and no bound, so the write of pc is all it does. -/
theorem retJumpsToTheByteAtSp : Obligations.RetJumpsToTheByteAtSp := by
  unfold Obligations.RetJumpsToTheByteAtSp
  refine ⟨rfl, fun s => ?_⟩
  rw [exec_ret, setPc]

/-- Settles O46: CALL left its return address in the cell at sp, which is the byte RET reads. -/
theorem retResumesAfterTheCall : Obligations.RetResumesAfterTheCall := by
  unfold Obligations.RetResumesAfterTheCall
  intro s u ra hm
  refine ⟨_, exec_call_regByte s ra, setPc_pc _ _, rfl, fun _ hcell => ?_⟩
  have stored : memRead (memWrite s.sp (s.pc + 2) s) s.sp = s.pc + 2 := memRead_memWrite_same s _ _ hm
  rw [exec_ret, hcell, memRead_setPc, setPc_sp, memWrite_sp, stored, setPc]

/-! ### The symmetric discipline -/

/-- CALL that pushes, in the operations it is made of (R163). -/
theorem callWith_symmetric (a : Byte) (s : State) : callWith .symmetric a s = withReg a s fun ra =>
    if s.sp = 0 then raise .stackFault 0 s else setPc (readReg s ra) (push8 (nextPc .call s) s) := rfl

/-- RET that pops, in the operations it is made of (R163). -/
theorem retWith_symmetric (s : State) :
    retWith .symmetric s = if s.sp = 255 then raise .stackFault 0 s else popPc s := rfl

/-- Settles O47: at sp = 0 the bound alone decides CALL and at sp = 255 it alone decides RET; elsewhere `push8` with the
jump, and `popPc`, remain; the check of CALL's operand comes before its bound. -/
theorem symmetricDisciplinePushesAndPops : Obligations.SymmetricDisciplinePushesAndPops := by
  unfold Obligations.SymmetricDisciplinePushesAndPops
  refine ⟨fun s ra h => ?_, fun s ra h => ?_, fun s a ha => ?_, fun s h => ?_, fun s h => ?_⟩
  · rw [callWith_symmetric, withReg_regByte, if_neg h, decodeWidth_f1 .call (by decide), push8, memWrite, setSp, setPc,
      toNat_sub_one_of_ne_zero s.sp h]
  · rw [callWith_symmetric, withReg_regByte, if_pos h, raise]
  · rw [callWith_symmetric, withReg_above a s _ ha, raise]
  · rw [retWith_symmetric, if_neg h, popPc, pop8, setSp, setPc]
  · rw [retWith_symmetric, if_pos h, raise]

end Sys2Proof.Machine
end

section
/-! PROOF. PRN and PRA (45_output.md R171, R173) and the rendering of what they emit (R172). -/

namespace Sys2Proof.Machine

/-! ### PRN and PRA -/

/-- Emitting an event and advancing past a two-byte instruction appends the event to out and adds 2 to pc, nothing
else. -/
theorem advance_emit_two_bytes (o : Op) (h : o ∈ [Op.push, .pop, .prn, .pra, .call, .jmp, .jne, .not])
    (e : OutEvent) (s : State) : advance o (emit e s) = { s with out := s.out ++ [e], pc := s.pc + 2 } := by
  rw [advance_two_bytes o h, emit]

/-- PRN in the operations it is made of (R171). -/
theorem exec_prn (a : Byte) (s : State) :
    exec (.prn a) s = .next (withReg a s fun ra => advance .prn (emit (.dec (readReg s ra)) s)) := rfl

/-- Settles O28: with a register in operand a only the emitted event and the two-byte advance remain; the check of the
operand comes before both. -/
theorem prnEmitsADecimalEvent : Obligations.PrnEmitsADecimalEvent := by
  unfold Obligations.PrnEmitsADecimalEvent
  refine ⟨fun _ => rfl, fun s ra => ?_, ?_⟩
  · rw [exec_prn, withReg_regByte, advance_emit_two_bytes .prn (by decide)]
  · exact faultsAboveSeven_of_withReg _ _ exec_prn

/-- PRA in the operations it is made of (R173). -/
theorem exec_pra (a : Byte) (s : State) :
    exec (.pra a) s = .next (withReg a s fun ra => advance .pra (emit (.chr (readReg s ra)) s)) := rfl

/-- Settles O29: PRN's argument, with the character event. -/
theorem praEmitsACharacterEvent : Obligations.PraEmitsACharacterEvent := by
  unfold Obligations.PraEmitsACharacterEvent
  refine ⟨fun _ => rfl, fun s ra => ?_, ?_⟩
  · rw [exec_pra, withReg_regByte, advance_emit_two_bytes .pra (by decide)]
  · exact faultsAboveSeven_of_withReg _ _ exec_pra

/-! ### The decimal digits of a byte -/

/-- The byte of a digit below 10 lies that far above the byte of 0: the sum does not wrap. -/
theorem asciiDigit_toNat (d : Nat) (h : d < 10) : (asciiDigit d).toNat = 0x30 + d := by
  rw [asciiDigit, BitVec.toNat_ofNat]
  omega

/-- The byte of a digit below 10 is an ASCII digit. -/
theorem asciiDigit_range (d : Nat) (h : d < 10) : 0x30 ≤ (asciiDigit d).toNat ∧ (asciiDigit d).toNat ≤ 0x39 := by
  rw [asciiDigit_toNat d h]
  omega

/-- Among the digits below 10 only 0 has the byte 0x30. -/
theorem eq_zero_of_asciiDigit (d : Nat) (h : d < 10) (hd : asciiDigit d = 0x30) : d = 0 := by
  have hn : (asciiDigit d).toNat = 0x30 := congrArg BitVec.toNat hd
  rw [asciiDigit_toNat d h] at hn
  omega

/-- The decimal digits of a byte, by how many there are (R172): digits below 10 that make up its value, the first of
several not 0. What holds of each such list holds of `decimalDigits v`. -/
theorem decimalDigits_elim {P : List Byte → Prop} (v : Byte)
    (one : ∀ o < 10, v.toNat = o → P [asciiDigit o])
    (two : ∀ t < 10, ∀ o < 10, t ≠ 0 → v.toNat = 10 * t + o → P [asciiDigit t, asciiDigit o])
    (three : ∀ c < 10, ∀ t < 10, ∀ o < 10, c ≠ 0 → v.toNat = 100 * c + 10 * t + o →
      P [asciiDigit c, asciiDigit t, asciiDigit o]) : P (decimalDigits v) := by
  have hv : v.toNat < 256 := v.isLt
  simp only [decimalDigits]
  split
  · exact one _ ‹_› rfl
  split
  · exact two _ (by omega) _ (by omega) (by omega) (by omega)
  · exact three _ (by omega) _ (by omega) _ (by omega) (by omega) (by omega)

/-- Every byte of the digits is an ASCII digit. -/
theorem decimalDigits_ascii (v : Byte) : ∀ d ∈ decimalDigits v, 0x30 ≤ d.toNat ∧ d.toNat ≤ 0x39 := by
  refine decimalDigits_elim (P := fun ds => ∀ d ∈ ds, 0x30 ≤ d.toNat ∧ d.toNat ≤ 0x39) v
    (fun o ho _ => ?_) (fun t ht o ho _ _ => ?_) fun c hc t ht o ho _ _ => ?_
  · simp [asciiDigit_range o ho]
  · simp [asciiDigit_range t ht, asciiDigit_range o ho]
  · simp [asciiDigit_range c hc, asciiDigit_range t ht, asciiDigit_range o ho]

/-- Read most significant first, the digits have the byte's value. -/
theorem decimalDigits_value (v : Byte) :
    (decimalDigits v).foldl (fun n d => 10 * n + (d.toNat - 0x30)) 0 = v.toNat := by
  refine decimalDigits_elim (P := fun ds => ds.foldl (fun n d => 10 * n + (d.toNat - 0x30)) 0 = v.toNat) v
    (fun o ho hv => ?_) (fun t ht o ho _ hv => ?_) fun c hc t ht o ho _ hv => ?_
  · simp [asciiDigit_toNat o ho, hv]
  · simp [asciiDigit_toNat t ht, asciiDigit_toNat o ho, hv]
  · simp only [List.foldl_cons, List.foldl_nil, asciiDigit_toNat c hc, asciiDigit_toNat t ht, asciiDigit_toNat o ho]
    omega

/-- There are one to three digits. -/
theorem decimalDigits_length (v : Byte) : 1 ≤ (decimalDigits v).length ∧ (decimalDigits v).length ≤ 3 :=
  decimalDigits_elim (P := fun ds => 1 ≤ ds.length ∧ ds.length ≤ 3) v (fun _ _ _ => by simp)
    (fun _ _ _ _ _ _ => by simp) fun _ _ _ _ _ _ _ _ => by simp

/-- The first digit is 0 for the byte 0 alone, where it is the only one. -/
theorem decimalDigits_no_leading_zero (v : Byte) :
    (decimalDigits v).head? = some 0x30 → v = 0 ∧ (decimalDigits v).length = 1 := by
  refine decimalDigits_elim (P := fun ds => ds.head? = some 0x30 → v = 0 ∧ ds.length = 1) v
    (fun o ho hv h0 => ?_) (fun t ht _ _ ht0 _ h0 => ?_) fun c hc _ _ _ _ hc0 _ h0 => ?_
  · have ho0 : o = 0 := eq_zero_of_asciiDigit o ho (Option.some.inj h0)
    exact ⟨BitVec.eq_of_toNat_eq (hv.trans ho0), rfl⟩
  · exact absurd (eq_zero_of_asciiDigit t ht (Option.some.inj h0)) ht0
  · exact absurd (eq_zero_of_asciiDigit c hc (Option.some.inj h0)) hc0

/-! ### The rendering of out -/

/-- The rendering of a sequence is the concatenation of its events' renderings. -/
theorem render_eq_flatten (es : List OutEvent) : render es = (es.map renderEvent).flatten := by
  induction es with
  | nil => rfl
  | cons e es ih => rw [render, ih, List.map_cons, List.flatten_cons]

/-- Settles O56: the digits asked for are the model's `decimalDigits`, which have each of the listed properties. -/
theorem renderingIsDecimalAndRaw : Obligations.RenderingIsDecimalAndRaw := by
  unfold Obligations.RenderingIsDecimalAndRaw
  refine ⟨fun v => ?_, fun _ => rfl, render_eq_flatten⟩
  obtain ⟨hmin, hmax⟩ := decimalDigits_length v
  exact ⟨decimalDigits v, rfl, decimalDigits_ascii v, decimalDigits_value v, hmin, hmax, decimalDigits_no_leading_zero v⟩

end Sys2Proof.Machine
end

section
/-! PROOF. IRET and HLT (46_system.md R180, R181), and IRET as the inverse of an interrupt entry (60_exceptions.md
R226, R231). -/

namespace Sys2Proof.Machine

/-! ### IRET -/

/-- IRET with room for its nine pops makes them (R180). -/
theorem exec_iret_restores (s : State) (h : s.sp.toNat ≤ 246) : exec .iret s = .next (restoreFrame s) :=
  congrArg Host.Outcome.next (if_neg h.not_gt)

/-- IRET without room for its nine pops is a StackFault (D5). -/
theorem exec_iret_fault (s : State) (h : 246 < s.sp.toNat) : exec .iret s = .next (raise .stackFault 0 s) :=
  congrArg Host.Outcome.next (if_pos h)

/-- Settles O30: the bound on sp alone decides, and the nine pops in one update are `restoreFrame_eq`. -/
theorem iretPopsTheNineByteFrame : Obligations.IretPopsTheNineByteFrame := by
  unfold Obligations.IretPopsTheNineByteFrame
  refine ⟨rfl, fun s h => ?_, fun s h => ?_⟩
  · rw [exec_iret_restores s h, restoreFrame_eq]
  · rw [exec_iret_fault s h, raise]

/-! ### IRET right after an entry -/

/-- What an interrupt entry with room for its frame leaves (R226). -/
def entered (s : State) : State := vectorPc (clearStatus (pushAll (frameBytes s) s))

/-- An entry with at least nine cells below sp leaves `entered`. -/
theorem interruptEntry_eq_entered (s : State) (h : 9 ≤ s.sp.toNat) : interruptEntry s = entered s :=
  interruptEntryWith_saves false s h

/-- An entry writes memory and sp, clears the status bit and vectors; nothing else changes. -/
theorem entered_fields (s : State) : entered s = { s with
    mem := (entered s).mem, x := s.x.set 6 (readReg s 6 &&& 0xFE), pc := (entered s).pc, sp := s.sp - 9 } := by
  rw [entered, pushAll_fields]
  rfl

/-- An entry leaves sp nine cells down. -/
theorem entered_sp (s : State) : (entered s).sp = s.sp - 9 := by
  rw [entered_fields]

/-- Popping meets the frame's bytes in reverse: the cell k above the new sp holds the k-th byte from the last pushed. -/
theorem memRead_entered_frame (s : State) (hm : Memory.wf s.mem = true) (hs : 9 ≤ s.sp.toNat) (k : Byte)
    (hk : k.toNat < 9) : memRead (entered s) (s.sp - 9 + k) = (frameBytes s)[8 - k.toNat]'(Nat.sub_lt_succ 8 _) := by
  have address : s.sp - 9 + k = s.sp - BitVec.ofNat 8 (8 - k.toNat + 1) := by bv_omega
  rw [address]
  exact memRead_pushAll_frame (frameBytes s) s (8 - k.toNat) _ hs hm

/-- An entry leaves x[7], which its frame does not hold (R226). -/
theorem readReg_entered_seven (s : State) : readReg (entered s) 7 = readReg s 7 := by
  rw [entered, readReg_vectorPc, clearStatus, readReg_writeReg_other _ _ _ _ (by decide), readReg_pushAll]

/-- The register file lists what its eight registers read. -/
theorem registers_eq (s : State) : #v[readReg s 0, readReg s 1, readReg s 2, readReg s 3, readReg s 4, readReg s 5,
    readReg s 6, readReg s 7] = s.x := by
  apply Vector.ext
  intro i hi
  interval_cases i <;> rfl

/-- The nine pops after an entry undo everything it did but the frame's bytes in memory. -/
theorem restoreFrame_entered (s : State) (hm : Memory.wf s.mem = true) (hs : 9 ≤ s.sp.toNat) :
    restoreFrame (entered s) = { s with mem := (entered s).mem } := by
  have popped := memRead_entered_frame s hm hs
  have last : memRead (entered s) (s.sp - 9) = readReg s 6 := BitVec.add_zero (s.sp - 9) ▸ popped 0 (by decide)
  rw [restoreFrame_eq, entered_sp, last, popped 1 (by decide), popped 2 (by decide), popped 3 (by decide),
    popped 4 (by decide), popped 5 (by decide), popped 6 (by decide), popped 7 (by decide), popped 8 (by decide),
    readReg_entered_seven, entered_fields]
  apply State.ext
  case x => exact registers_eq s
  case sp => exact BitVec.sub_add_cancel s.sp 9
  all_goals rfl

/-- Settles O43: entry leaves sp nine cells down, so IRET has room for its pops, and they undo the entry. -/
theorem returnUndoesEntry : Obligations.ReturnUndoesEntry := by
  unfold Obligations.ReturnUndoesEntry
  intro s hm hs
  have room : (entered s).sp.toNat ≤ 246 := by
    rw [entered_sp]
    bv_omega
  rw [interruptEntry_eq_entered s hs, exec_iret_restores _ room, restoreFrame_entered s hm hs]

/-! ### HLT -/

/-- HLT stops the engine with its own cause (R181). -/
theorem exec_hlt (s : State) : exec .hlt s = .next (raise .hlt 0 s) := rfl

/-- Settles O31: HLT's next state is HALTED, and `step` answers its one fault there. -/
theorem hltHaltsTheEngine : Obligations.HltHaltsTheEngine := by
  unfold Obligations.HltHaltsTheEngine
  refine ⟨rfl, fun s => exec_hlt s, fun s t u h hstep => ?_⟩
  obtain rfl : raise .hlt 0 s = t := Host.Outcome.next.inj (exec_hlt s ▸ h)
  rw [step_halted _ (raise_run s .hlt 0)] at hstep
  cases hstep

end Sys2Proof.Machine
end

section
/-! PROOF. The LS-8/ext instructions SUB, DIV, AND, OR, XOR, NOT and JNE (47_scope_named_extension.md R191 to R197), from
what the binary ALU instructions share and the pc advance of a two-byte one. -/

namespace Sys2Proof.Machine

/-! ### SUB -/

/-- SUB in the operations it is made of (R191). -/
theorem exec_sub (a b : Byte) (s : State) :
    exec (.sub a b) s = .next (aluBinary .sub (fun p q => p - q) a b s) := rfl

/-- The difference of two bytes is the integer difference of their unsigned values, narrowed to 8 bits. -/
theorem ofInt_toNat_sub_toNat (p q : Byte) : BitVec.ofInt 8 ((p.toNat : Int) - (q.toNat : Int)) = p - q := by
  rw [Int.sub_eq_add_neg, BitVec.ofInt_add, BitVec.ofInt_neg, ← BitVec.sub_eq_add_neg]
  simp only [BitVec.ofInt_natCast, BitVec.ofNat_toNat, BitVec.setWidth_eq]

/-- Settles O16: a byte difference is the integer difference narrowed to 8 bits; the rest is every binary ALU
instruction's. -/
theorem subIsDifferenceModulo256 : Obligations.SubIsDifferenceModulo256 := by
  unfold Obligations.SubIsDifferenceModulo256
  refine ⟨fun _ _ => rfl, fun s ra rb => ?_, ?_⟩
  · rw [exec_sub, aluBinary_regByte .sub (by decide), ofInt_toNat_sub_toNat]
  · exact faultsAboveSevenInOrder_of_aluBinary _ _ _ exec_sub

/-! ### DIV -/

/-- DIV in the operations it is made of (R192). -/
theorem exec_div (a b : Byte) (s : State) : exec (.div a b) s = .next (withRegs a b s fun ra rb =>
    if readReg s rb = 0 then raise .divideByZero 0 s
    else advance .div (writeReg ra (readReg s ra / readReg s rb) s)) := rfl

/-- The quotient of two bytes is the quotient of their unsigned values. -/
theorem ofNat_toNat_div_toNat (p q : Byte) : BitVec.ofNat 8 (p.toNat / q.toNat) = p / q := by
  rw [← BitVec.toNat_udiv, BitVec.ofNat_toNat, BitVec.setWidth_eq]

/-- Settles O17: with registers in both operands the divisor alone decides between DivideByZero and the write of the
quotient with the three-byte advance; the checks, a before b, come before both. -/
theorem divIsUnsignedQuotientOrFault : Obligations.DivIsUnsignedQuotientOrFault := by
  unfold Obligations.DivIsUnsignedQuotientOrFault
  refine ⟨fun _ _ => rfl, fun s ra rb h => ?_, fun s ra rb h => ?_, ?_⟩
  · rw [exec_div, withRegs_regByte, if_neg h, advance_three_bytes .div (by decide), writeReg, ofNat_toNat_div_toNat]
  · rw [exec_div, withRegs_regByte, if_pos h, raise]
  · exact faultsAboveSevenInOrder_of_withRegs _ _ exec_div

/-! ### AND, OR and XOR -/

/-- An instruction that is the binary ALU shape of a byte function: its value on registers and its faults. -/
theorem exec_of_aluBinary (mk : Byte → Byte → Instr) (o : Op)
    (ho : o ∈ [Op.ldi, .st, .add, .mul, .cmp, .sub, .div, .and, .or, .xor]) (f : Byte → Byte → Byte)
    (h : ∀ a b s, exec (mk a b) s = .next (aluBinary o f a b s)) :
    (∀ (s : State) (ra rb : Fin 8), exec (mk (regByte ra) (regByte rb)) s =
      .next { s with x := s.x.set ra (f (readReg s ra) (readReg s rb)), pc := s.pc + 3 }) ∧
    FaultsAboveSevenInOrder mk := by
  refine ⟨fun s ra rb => ?_, faultsAboveSevenInOrder_of_aluBinary mk o f h⟩
  rw [h, aluBinary_regByte o ho]

/-- AND in the operations it is made of (R193). -/
theorem exec_and (a b : Byte) (s : State) :
    exec (.and a b) s = .next (aluBinary .and (fun p q => p &&& q) a b s) := rfl

/-- Settles O18: AND is the binary ALU shape of the bitwise and. -/
theorem andIsBitwise : Obligations.AndIsBitwise := by
  unfold Obligations.AndIsBitwise
  exact ⟨fun _ _ => rfl, exec_of_aluBinary .and .and (by decide) _ exec_and⟩

/-- OR in the operations it is made of (R194). -/
theorem exec_or (a b : Byte) (s : State) :
    exec (.or a b) s = .next (aluBinary .or (fun p q => p ||| q) a b s) := rfl

/-- Settles O19: OR is the binary ALU shape of the bitwise inclusive or. -/
theorem orIsBitwise : Obligations.OrIsBitwise := by
  unfold Obligations.OrIsBitwise
  exact ⟨fun _ _ => rfl, exec_of_aluBinary .or .or (by decide) _ exec_or⟩

/-- XOR in the operations it is made of (R195). -/
theorem exec_xor (a b : Byte) (s : State) :
    exec (.xor a b) s = .next (aluBinary .xor (fun p q => p ^^^ q) a b s) := rfl

/-- Settles O20: XOR is the binary ALU shape of the bitwise exclusive or. -/
theorem xorIsBitwise : Obligations.XorIsBitwise := by
  unfold Obligations.XorIsBitwise
  exact ⟨fun _ _ => rfl, exec_of_aluBinary .xor .xor (by decide) _ exec_xor⟩

/-! ### NOT -/

/-- NOT in the operations it is made of (R196). -/
theorem exec_not (a : Byte) (s : State) :
    exec (.not a) s = .next (withReg a s fun ra => advance .not (writeReg ra (~~~ readReg s ra) s)) := rfl

/-- The complement of a byte is 255 minus its unsigned value (R196). -/
theorem ofNat_255_sub_toNat (v : Byte) : BitVec.ofNat 8 (255 - v.toNat) = ~~~ v := by
  have complement : (~~~ v).toNat = 255 - v.toNat := BitVec.toNat_not
  rw [← complement, BitVec.ofNat_toNat, BitVec.setWidth_eq]

/-- Settles O21: with a register in operand a only the write of the complement and the two-byte advance remain; the check
of the operand comes before both. -/
theorem notIsComplement : Obligations.NotIsComplement := by
  unfold Obligations.NotIsComplement
  refine ⟨fun _ => rfl, fun s ra => ?_, ?_⟩
  · rw [exec_not, withReg_regByte, advance_two_bytes .not (by decide), writeReg, ofNat_255_sub_toNat]
  · exact faultsAboveSeven_of_withReg _ _ exec_not

/-! ### JNE -/

/-- JNE in the operations it is made of (R197). -/
theorem exec_jne (a : Byte) (s : State) : exec (.jne a) s = .next (withReg a s fun ra =>
    if equalFlag s.fl then advance .jne s else setPc (readReg s ra) s) := rfl

/-- Bit E is set exactly when the flags, read as a number, are odd (R29). -/
theorem equalFlag_iff (fl : Byte) : equalFlag fl = true ↔ ¬ fl.toNat % 2 = 0 := by
  simp [equalFlag, BitVec.getLsbD, Nat.testBit_zero]

/-- Settles O27: with a register in operand a bit E alone decides between the jump and the two-byte advance; the check of
the operand comes before that choice. -/
theorem jneBranchesOnEClear : Obligations.JneBranchesOnEClear := by
  unfold Obligations.JneBranchesOnEClear
  refine ⟨fun _ => rfl, fun s ra => ?_, ?_⟩
  · rw [exec_jne, withReg_regByte]
    by_cases clear : s.fl.toNat % 2 = 0
    · rw [if_neg fun set => (equalFlag_iff s.fl).1 set clear, if_pos clear, setPc]
    · rw [if_pos ((equalFlag_iff s.fl).2 clear), if_neg clear, advance_two_bytes .jne (by decide)]
  · exact faultsAboveSeven_of_withReg _ _ exec_jne

end Sys2Proof.Machine
end

section
/-! PROOF. The fatal conditions: a bad register operand comes before any other fault, a halting instruction writes the
status outputs alone, an unrecognized byte stops in phase 5 (60_exceptions.md R211, R213, R215, R216). -/

namespace Sys2Proof.Machine

/-! ### Bad register operands -/

/-- One register operand raises RegIndexFault with the first byte above 7 there is. -/
theorem withReg_first_above (a k : Byte) (s : State) (f : Fin 8 → State)
    (h : [a].find? (fun b => decide (7 < b.toNat)) = some k) : withReg a s f = raise .regIndexFault k s := by
  obtain rfl : k = a := List.mem_singleton.1 (List.mem_of_find?_eq_some h)
  exact withReg_above k s f (of_decide_eq_true (List.find?_some h :))

/-- Two register operands raise RegIndexFault with the first byte above 7 there is: a, or, where a names a register, the
first of b alone. -/
theorem withRegs_first_above (a b k : Byte) (s : State) (f : Fin 8 → Fin 8 → State)
    (h : [a, b].find? (fun c => decide (7 < c.toNat)) = some k) : withRegs a b s f = raise .regIndexFault k s := by
  rcases Nat.lt_or_ge 7 a.toNat with ha | ha
  · obtain rfl : a = k := by simpa [ha] using h
    exact withRegs_above a b s f ha
  · obtain ⟨ra, rfl⟩ := (regByte_iff a).1 ha
    rw [List.find?_cons_of_neg (by simpa using ha)] at h
    rw [withRegs, withReg_regByte, withReg_first_above b k s _ h]

/-- Settles O32: the operand form is an instruction's outermost operation, so its check comes before any other fault. -/
theorem badRegisterOperandIsReportedFirst : Obligations.BadRegisterOperandIsReportedFirst := by
  unfold Obligations.BadRegisterOperandIsReportedFirst
  intro i s k h
  cases i
  case hlt | ret | iret => cases h
  case push | pop | prn | pra | call | jmp | ldi | jne | not =>
    exact congrArg Host.Outcome.next (withReg_first_above _ k s _ h)
  case st | add | mul | cmp | sub | div | and | or | xor =>
    exact congrArg Host.Outcome.next (withRegs_first_above _ _ k s _ h)

/-! ### Precise stops -/

/-- What `i`, executed at `s` while RUNNING, may leave: a stop with a cause the list gives it and nothing else changed,
or unchanged status outputs (R215, R216). -/
def PreciseStop (i : Instr) (s t : State) : Prop :=
  (t.run = .halted → t.haltCause ∈ mayRaise i ∧ t = stoppedWith t.haltCause t.haltInfo s) ∧
  (t.run = .running → t.haltCause = s.haltCause ∧ t.haltInfo = s.haltInfo)

theorem raise_preciseStop (i : Instr) (s : State) (cause : HaltCause) (info : Byte) (h : cause ∈ mayRaise i) :
    PreciseStop i s (raise cause info s) :=
  ⟨fun _ => ⟨h, rfl⟩, (nomatch ·)⟩

/-- Unchanged status outputs are those of an engine that did not halt. -/
theorem preciseStop_of_status_eq (i : Instr) (s t : State) (hs : s.run = .running) (h : status t = status s) :
    PreciseStop i s t := by
  simp only [status, Prod.mk.injEq] at h
  obtain ⟨hr, hc, hi⟩ := h
  refine ⟨fun halted => ?_, fun _ => ⟨hc, hi⟩⟩
  cases halted.symm.trans (hr.trans hs)

/-- Settles O35: each outcome of an instruction is a stop with a listed cause or leaves the status outputs alone. -/
theorem haltingInstructionsArePrecise : Obligations.HaltingInstructionsArePrecise := by
  unfold Obligations.HaltingInstructionsArePrecise
  intro i s t hs h
  have stop := raise_preciseStop i s
  have same : ∀ u, status u = status s → PreciseStop i s u := fun u => preciseStop_of_status_eq i s u hs
  apply exec_elim (P := PreciseStop i s) i s t h
  case hlt => exact fun hi => stop _ _ (hi ▸ List.mem_singleton_self _)
  case bad => exact fun _ _ _ listed => stop _ _ listed
  case stk | dvz => exact fun listed => stop _ _ listed
  case iret => exact fun _ _ => same _ (status_restoreFrame s)
  all_goals intros; exact same _ rfl

/-! ### Unrecognized bytes -/

/-- A fetch of a byte outside the table does not decode, whatever the operand bytes (R86, R88). -/
theorem decodeFetched_outside_table (ir a b : Byte) (hbase : ir ∉ baseBytes) (hext : ir ∉ extBytes) :
    decodeFetched ir a b = none := by
  obtain ⟨-, -, recognized⟩ := recognizedBytesAreTheTable ir a b
  exact Option.not_isSome_iff_eq_none.1 fun found => (recognized.1 found).elim hbase hext

/-- Settles O33: phase 5 has no handler for a fetch that does not decode. -/
theorem unrecognizedOpcodeStopsWithTheByte : Obligations.UnrecognizedOpcodeStopsWithTheByte := by
  unfold Obligations.UnrecognizedOpcodeStopsWithTheByte
  intro s ir a b hbase hext
  rw [dispatch, decodeFetched_outside_table ir a b hbase hext, raise]

end Sys2Proof.Machine
end

section
/-! PROOF. The timer interrupt: the tick, the check, the entry under either order of save and clear, and what IRET then
finds pending (60_exceptions.md R222 to R228, 70_reset_and_hazards.md R260). -/

namespace Sys2Proof.Machine

/-! ### The clock advance -/

/-- Bit 0 of a byte is set exactly when its value is odd. -/
theorem getLsbD_zero_iff (v : Byte) : v.getLsbD 0 = true ↔ v.toNat % 2 = 1 := by
  simp [BitVec.getLsbD, Nat.testBit_zero]

/-- Setting bit 0 of an odd byte changes nothing. -/
theorem or_one_of_odd (v : Byte) (h : v.toNat % 2 = 1) : v ||| 1 = v := by
  apply BitVec.eq_of_getLsbD_eq
  intro i hi
  cases i with
  | zero => simp [(getLsbD_zero_iff v).2 h]
  | succ i => simp [BitVec.getLsbD_one]

/-- Latching no tick changes nothing (R222). -/
theorem latchTick_false (s : State) : latchTick false s = s := by
  have unset : readReg s 6 ||| 0 = readReg s 6 := BitVec.or_zero
  exact (congrArg (writeReg 6 · s) unset).trans (writeReg_readReg s 6)

/-- Latching a tick sets bit 0 of x[6] (R222). -/
theorem latchTick_true (s : State) : latchTick true s = writeReg 6 (readReg s 6 ||| 1) s := rfl

/-- Settles O42: no tick writes back what x[6] holds, and so does a tick that finds the bit set. -/
theorem tickSetsTheStatusBitOnly : Obligations.TickSetsTheStatusBitOnly := by
  unfold Obligations.TickSetsTheStatusBitOnly
  intro s
  refine ⟨latchTick_true s, latchTick_false s, fun tick pending => ?_⟩
  cases tick with
  | false => exact latchTick_false s
  | true => rw [latchTick_true, or_one_of_odd _ pending, writeReg_readReg]

/-! ### The check -/

/-- The interrupt is taken exactly when x[5] and x[6] are both odd (R225). -/
theorem interruptTaken_iff (s : State) :
    interruptTaken s = true ↔ (readReg s 5).toNat % 2 = 1 ∧ (readReg s 6).toNat % 2 = 1 := by
  rw [interruptTaken, BitVec.getLsbD_and, Bool.and_eq_true, getLsbD_zero_iff, getLsbD_zero_iff]
  rfl

/-- Settles O37: phase 1 branches on the check, which reads bit 0 of both registers. -/
theorem interruptIsTakenOnBitZeroOfBoth : Obligations.InterruptIsTakenOnBitZeroOfBoth := by
  unfold Obligations.InterruptIsTakenOnBitZeroOfBoth
  intro s
  exact ⟨interruptTaken_iff s, if_congr (interruptTaken_iff s) rfl rfl⟩

/-! ### The entry -/

/-- Settles O40: phase 1 is a StackFault then, and ends the cycle. -/
theorem entryWithoutRoomIsAStackFault : Obligations.EntryWithoutRoomIsAStackFault := by
  unfold Obligations.EntryWithoutRoomIsAStackFault
  intro s tick taken noRoom
  have fault : interruptCheck s = raise .stackFault 0 s :=
    (interruptCheck_taken s taken).trans (interruptEntryWith_fault _ s noRoom)
  rw [engineCycle_entry_fault tick s (fault ▸ raise_run s _ _), fault, raise]

/-- The n-th byte of the frame lies n + 1 cells below the old sp. -/
theorem memRead_entered_cell (s : State) (hm : Memory.wf s.mem = true) (hs : 9 ≤ s.sp.toNat) (n : Nat) (hn : n < 9) :
    memRead (entered s) (s.sp - BitVec.ofNat 8 (n + 1)) = (frameBytes s)[n]'hn :=
  memRead_pushAll_frame (frameBytes s) s n hn hs hm

/-- An entry leaves every cell but the nine of its frame. -/
theorem memRead_entered_other (s : State) (hs : 9 ≤ s.sp.toNat) (a : Byte)
    (ha : a.toNat < s.sp.toNat - 9 ∨ s.sp.toNat ≤ a.toNat) : memRead (entered s) a = memRead s a :=
  memRead_pushAll_other (frameBytes s) s a hs ha

theorem readReg_clearStatus_status (s : State) : readReg (clearStatus s) 6 = readReg s 6 &&& 0xFE :=
  readReg_writeReg_same s 6 _

theorem readReg_clearStatus_other (s : State) (r : Fin 8) (h : r ≠ 6) : readReg (clearStatus s) r = readReg s r :=
  readReg_writeReg_other s 6 r _ h

/-- An entry leaves the registers as clearing the status bit does: its frame and its vector write none. -/
theorem readReg_entered (s : State) (r : Fin 8) : readReg (entered s) r = readReg (clearStatus s) r := by
  rw [entered_fields]
  rfl

/-- Settles O38: without room the entry is the fault; with room the frame's cells hold its bytes in the order they are
pushed, and nothing but memory, sp, the status bit and pc is written. -/
theorem interruptEntrySavesNineBytesAndVectors : Obligations.InterruptEntrySavesNineBytesAndVectors := by
  unfold Obligations.InterruptEntrySavesNineBytesAndVectors
  refine ⟨fun s noRoom => interruptEntryWith_fault _ s noRoom, fun s hm hs => ?_⟩
  have cell := memRead_entered_cell s hm hs
  rw [interruptEntry_eq_entered s hs]
  refine ⟨cell 0 (by decide), cell 1 (by decide), cell 2 (by decide), cell 3 (by decide), cell 4 (by decide),
    cell 5 (by decide), cell 6 (by decide), cell 7 (by decide), cell 8 (by decide), memRead_entered_other s hs,
    entered_sp s, rfl, ?_, fun r hr => ?_, ?_⟩
  · rw [readReg_entered, readReg_clearStatus_status]
  · rw [readReg_entered, readReg_clearStatus_other s r hr]
  · rw [entered_fields]
    exact ⟨rfl, rfl, rfl, rfl, rfl⟩

/-! ### Clear before save -/

/-- With room for the frame, clearing before the save is the entry of the state whose status bit is clear (R227). -/
theorem interruptEntryWith_true (s : State) (hs : 9 ≤ s.sp.toNat) :
    interruptEntryWith true s = interruptEntry (clearStatus s) := by
  rw [interruptEntryWith_saves true s hs, interruptEntry_eq_entered (clearStatus s) hs]
  rfl

/-- Settles O39: the entry of the state whose status bit is clear saves that x[6], and clears its bit to no effect. -/
theorem clearBeforeSaveChangesOnlyTheSavedStatus : Obligations.ClearBeforeSaveChangesOnlyTheSavedStatus := by
  unfold Obligations.ClearBeforeSaveChangesOnlyTheSavedStatus
  intro s hm hs
  obtain ⟨-, entry⟩ := interruptEntrySavesNineBytesAndVectors
  have cleared := entry (clearStatus s) hm hs
  rw [interruptEntryWith_true s hs]
  simpa +contextual [readReg_clearStatus_other, readReg_clearStatus_status, BitVec.and_assoc] using cleared

/-! ### The interrupt after the return -/

/-- With the status bit clear no interrupt is taken. -/
theorem interruptTaken_clearStatus (s : State) : interruptTaken (clearStatus s) = false := by
  rw [interruptTaken, intStatusReg, readReg_clearStatus_status]
  simp

/-- Settles O44: IRET brings back the registers the frame saved, so the interrupt is pending again exactly when the
status bit was saved before it was cleared. -/
theorem returnRaisesTheInterruptAgain : Obligations.ReturnRaisesTheInterruptAgain := by
  unfold Obligations.ReturnRaisesTheInterruptAgain
  intro s hm taken hs
  refine ⟨⟨_, returnUndoesEntry s hm hs, taken⟩, ?_⟩
  rw [interruptEntryWith_true s hs]
  exact ⟨_, returnUndoesEntry (clearStatus s) hm hs, interruptTaken_clearStatus s⟩

end Sys2Proof.Machine
end

section
/-! PROOF. The launch: what the loaded image leaves in each cell (70_reset_and_hazards.md R254). -/

namespace Sys2Proof.Machine

/-- Storing bytes from an address up leaves the cells below it and from their end on. -/
theorem read_storeBytes_other (vs : List Byte) (a b : Nat) (m : Memory) (h : b < a ∨ a + vs.length ≤ b) :
    Memory.read (storeBytes vs a m) b = Memory.read m b := by
  induction vs generalizing a m with
  | nil => rfl
  | cons v vs ih =>
    rw [List.length_cons] at h
    rw [storeBytes, ih (a + 1) _ (by omega), Memory.read_write_other m a b v (by omega)]

/-- Storing bytes from an address up puts the i-th in the i-th cell from there. -/
theorem read_storeBytes_at (vs : List Byte) (a i : Nat) (m : Memory) (hm : Memory.wf m = true)
    (ha : a + vs.length ≤ 256) (hi : i < vs.length) : Memory.read (storeBytes vs a m) (a + i) = vs[i] := by
  induction vs generalizing a i m with
  | nil => cases hi
  | cons v vs ih =>
    rw [List.length_cons] at ha hi
    cases i with
    | zero => exact (read_storeBytes_other vs (a + 1) a _ (by omega)).trans (Memory.read_write_same m 0 a v hm)
    | succ i =>
      have written : Memory.wf (Memory.write m a v) = true :=
        Memory.wfFrom_write m 0 a v hm (Nat.zero_le a) (by omega)
      have rest := ih (a + 1) i _ written (by omega) (by omega)
      rwa [Nat.add_right_comm, Nat.add_assoc] at rest

/-- An image of at most 256 bytes is stored from address 0 up. -/
theorem load_of_length_le (image : List Byte) (s : State) (h : image.length ≤ 256) :
    load image s = .next { s with mem := storeBytes image 0 s.mem } :=
  if_pos ((imageWellFormed_iff image).2 h)

/-- An image of more than 256 bytes is refused (D17). -/
theorem load_of_length_gt (image : List Byte) (s : State) (h : 256 < image.length) :
    load image s = .refused .imageTooLong :=
  if_neg fun accepted => h.not_ge ((imageWellFormed_iff image).1 accepted)

/-- Settles O10: the image is stored over reset's memory, which reads 0 everywhere. -/
theorem loadPlacesTheImage : Obligations.LoadPlacesTheImage := by
  unfold Obligations.LoadPlacesTheImage
  refine ⟨fun image h => ?_, load_of_length_gt⟩
  refine ⟨_, load_of_length_le image State.reset h, fun i hi => ?_, fun i hi => ?_⟩
  · simpa using read_storeBytes_at image 0 i State.reset.mem reset_mem_wf (by omega) hi
  · exact read_storeBytes_other image 0 i State.reset.mem (by omega)

end Sys2Proof.Machine
end
